-- ==== Sys2Proof/Word.lean ====
section
/-! DEFINITION. The widths the spec names: nibbles, bytes, 16-bit words, 12-bit addresses, register indices (rules R9, R11, R30). -/
namespace Sys2Proof

/-- A 4-bit field of an opcode (rule R101). -/
abbrev Nib := BitVec 4

/-- A general register, a timer or a byte of memory (rules R30, R39, R40, R43). -/
abbrev Byte := BitVec 8

/-- The index register, the program counter, a stack entry or an opcode (rules R33, R38, R41, R100). -/
abbrev Word := BitVec 16

/-- The 12-bit address immediate NNN (rule R101). -/
abbrev Addr12 := BitVec 12

/-- The index of a general register V0..VF (rules R30, R55). -/
abbrev Reg := Fin 16

/-- The index of VF, the flag register (rule R31). -/
abbrev VF : Reg := 15

/-- The sixteen key states, `true` meaning pressed (rules R17, R47). -/
abbrev Keys := Vector Bool 16

/-- The 80 bytes of the glyph table (rule R44). -/
abbrev GlyphTable := Vector Byte 80

end Sys2Proof
end

