-- ==== Sys2Proof/Syntax.lean ====
section
/-! DEFINITION. The instruction set: one constructor for each of the 44 rows of opcode_table.json (rules R102 to R106). -/
namespace Sys2Proof

/-- One decoded instruction.
`x` and `y` are register fields, `n`, `nn` and `nnn` immediates (rule R101).
`z` holds opcode bits that the instruction does not read (rule R105) and `s` the function byte of an unrecognized
word; the machine reads neither, they are kept so that every opcode word is the encoding of exactly one instruction. -/
inductive Instr where
  /-- 0xE0 in family 0: clear the framebuffer (rule R260). -/
  | cls (z : Nib)
  /-- 0xEE in family 0: return from subroutine (rule R170). -/
  | ret (z : Nib)
  /-- Family 0, any other low byte: no operation (rule R321). -/
  | nop0 (z : Nib) (s : Byte)
  /-- 1NNN (rule R171). -/
  | jp (nnn : Addr12)
  /-- 2NNN (rule R172). -/
  | call (nnn : Addr12)
  /-- 3XNN (rule R173). -/
  | seImm (x : Reg) (nn : Byte)
  /-- 4XNN (rule R174). -/
  | sneImm (x : Reg) (nn : Byte)
  /-- 5XY_ (rule R175). -/
  | seReg (x y : Reg) (z : Nib)
  /-- 6XNN (rule R200). -/
  | ldImm (x : Reg) (nn : Byte)
  /-- 7XNN (rule R201). -/
  | addImm (x : Reg) (nn : Byte)
  /-- 8XY0 (rule R202). -/
  | ldReg (x y : Reg)
  /-- 8XY1 (rule R203). -/
  | orReg (x y : Reg)
  /-- 8XY2 (rule R204). -/
  | andReg (x y : Reg)
  /-- 8XY3 (rule R205). -/
  | xorReg (x y : Reg)
  /-- 8XY4 (rule R206). -/
  | addReg (x y : Reg)
  /-- 8XY5 (rule R207). -/
  | subReg (x y : Reg)
  /-- 8XY6: no operation (rule R320), as are the next nine. -/
  | nop8n6 (x y : Reg)
  | nop8n7 (x y : Reg)
  | nop8n8 (x y : Reg)
  | nop8n9 (x y : Reg)
  | nop8nA (x y : Reg)
  | nop8nB (x y : Reg)
  | nop8nC (x y : Reg)
  | nop8nD (x y : Reg)
  | nop8nE (x y : Reg)
  | nop8nF (x y : Reg)
  /-- 9XY_ (rule R176). -/
  | sneReg (x y : Reg) (z : Nib)
  /-- ANNN (rule R230). -/
  | ldI (nnn : Addr12)
  /-- BNNN (rule R177). -/
  | jpV0 (nnn : Addr12)
  /-- CXNN (rule R208). -/
  | rnd (x : Reg) (nn : Byte)
  /-- DXYN (rule R261). -/
  | drw (x y : Reg) (n : Nib)
  /-- EX9E (rule R293). -/
  | skp (x : Reg)
  /-- EXA1 (rule R294). -/
  | sknp (x : Reg)
  /-- Family E, any other low byte: no operation (rule R322). -/
  | nopE (x : Reg) (s : Byte)
  /-- FX07 (rule R290). -/
  | ldVxDt (x : Reg)
  /-- FX0A (rule R296). -/
  | ldVxK (x : Reg)
  /-- FX15 (rule R291). -/
  | ldDtVx (x : Reg)
  /-- FX18 (rule R292). -/
  | ldStVx (x : Reg)
  /-- FX1E (rule R231). -/
  | addI (x : Reg)
  /-- FX29 (rule R236). -/
  | ldF (x : Reg)
  /-- FX33 (rule R237). -/
  | ldB (x : Reg)
  /-- FX55 (rule R233). -/
  | storeRegs (x : Reg)
  /-- FX65 (rule R234). -/
  | loadRegs (x : Reg)
  /-- Family F, any other low byte: no operation (rule R323). -/
  | nopF (x : Reg) (s : Byte)
  deriving DecidableEq, Repr

end Sys2Proof
end

