-- ==== Sys2Proof/WellFormed.lean ====
section
/-! DEFINITION. Which instructions stand for a word: a no-op of family 0, E or F carries a function byte that its family does not assign (rules R321 to R323). -/
namespace Sys2Proof

/-- The low bytes family 0 assigns to CLS and RET (rule R104). -/
def family0Bytes : List Byte := [0xE0, 0xEE]

/-- The low bytes family E assigns (rule R104). -/
def familyEBytes : List Byte := [0x9E, 0xA1]

/-- The low bytes family F assigns (rule R104). -/
def familyFBytes : List Byte := [0x07, 0x0A, 0x15, 0x18, 0x1E, 0x29, 0x33, 0x55, 0x65]

/-- An instruction is well formed when some opcode word decodes to it.
Field widths bound every other operand (rule R55), so only the three default rows of rule R106 have a check. -/
def Instr.wellFormed : Instr → Bool
  | .nop0 _ s => !family0Bytes.contains s
  | .nopE _ s => !familyEBytes.contains s
  | .nopF _ s => !familyFBytes.contains s
  | .cls _ => true
  | .ret _ => true
  | .jp _ => true
  | .call _ => true
  | .seImm _ _ => true
  | .sneImm _ _ => true
  | .seReg _ _ _ => true
  | .ldImm _ _ => true
  | .addImm _ _ => true
  | .ldReg _ _ => true
  | .orReg _ _ => true
  | .andReg _ _ => true
  | .xorReg _ _ => true
  | .addReg _ _ => true
  | .subReg _ _ => true
  | .nop8n6 _ _ => true
  | .nop8n7 _ _ => true
  | .nop8n8 _ _ => true
  | .nop8n9 _ _ => true
  | .nop8nA _ _ => true
  | .nop8nB _ _ => true
  | .nop8nC _ _ => true
  | .nop8nD _ _ => true
  | .nop8nE _ _ => true
  | .nop8nF _ _ => true
  | .sneReg _ _ _ => true
  | .ldI _ => true
  | .jpV0 _ => true
  | .rnd _ _ => true
  | .drw _ _ _ => true
  | .skp _ => true
  | .sknp _ => true
  | .ldVxDt _ => true
  | .ldVxK _ => true
  | .ldDtVx _ => true
  | .ldStVx _ => true
  | .addI _ => true
  | .ldF _ => true
  | .ldB _ => true
  | .storeRegs _ => true
  | .loadRegs _ => true

end Sys2Proof
end

