-- ==== Sys2Proof/Decode.lean ====
section
/-! DEFINITION. From bytes to instructions and back: the fields (R101), the formats (R102), the decoder (R104), the encoder and the opcode table (R106). -/
namespace Sys2Proof

/-- The high nibble, op[15:12] (rule R101). -/
def fieldF (op : Word) : Nib := op.extractLsb' 12 4

/-- op[11:8] as bits (rule R101). -/
def fieldZ (op : Word) : Nib := op.extractLsb' 8 4

/-- The register index of Vx, op[11:8] (rule R101). -/
def fieldX (op : Word) : Reg := (op.extractLsb' 8 4).toFin

/-- The register index of Vy, op[7:4] (rule R101). -/
def fieldY (op : Word) : Reg := (op.extractLsb' 4 4).toFin

/-- op[3:0] (rule R101). -/
def fieldN (op : Word) : Nib := op.extractLsb' 0 4

/-- op[7:0] (rule R101). -/
def fieldNN (op : Word) : Byte := op.extractLsb' 0 8

/-- op[11:0] (rule R101). -/
def fieldNNN (op : Word) : Addr12 := op.extractLsb' 0 12

/-- Family 0, selected by its low byte (rule R104). -/
def decode0 (z : Nib) (nn : Byte) : Instr :=
  if nn = 0xE0 then .cls z
  else if nn = 0xEE then .ret z
  else .nop0 z nn

/-- Family 8, selected by its low nibble (rule R104). -/
def decode8 (x y : Reg) (n : Nib) : Instr :=
  match n.toNat with
  | 0x0 => .ldReg x y
  | 0x1 => .orReg x y
  | 0x2 => .andReg x y
  | 0x3 => .xorReg x y
  | 0x4 => .addReg x y
  | 0x5 => .subReg x y
  | 0x6 => .nop8n6 x y
  | 0x7 => .nop8n7 x y
  | 0x8 => .nop8n8 x y
  | 0x9 => .nop8n9 x y
  | 0xA => .nop8nA x y
  | 0xB => .nop8nB x y
  | 0xC => .nop8nC x y
  | 0xD => .nop8nD x y
  | 0xE => .nop8nE x y
  | _   => .nop8nF x y

/-- Family E, selected by its low byte (rule R104). -/
def decodeE (x : Reg) (nn : Byte) : Instr :=
  if nn = 0x9E then .skp x
  else if nn = 0xA1 then .sknp x
  else .nopE x nn

/-- Family F, selected by its low byte (rule R104). -/
def decodeF (x : Reg) (nn : Byte) : Instr :=
  if nn = 0x07 then .ldVxDt x
  else if nn = 0x0A then .ldVxK x
  else if nn = 0x15 then .ldDtVx x
  else if nn = 0x18 then .ldStVx x
  else if nn = 0x1E then .addI x
  else if nn = 0x29 then .ldF x
  else if nn = 0x33 then .ldB x
  else if nn = 0x55 then .storeRegs x
  else if nn = 0x65 then .loadRegs x
  else .nopF x nn

/-- The decode function of rule R104, total on every 16-bit word (rule R108). -/
def decodeWord (op : Word) : Instr :=
  match (fieldF op).toNat with
  | 0x0 => decode0 (fieldZ op) (fieldNN op)
  | 0x1 => .jp (fieldNNN op)
  | 0x2 => .call (fieldNNN op)
  | 0x3 => .seImm (fieldX op) (fieldNN op)
  | 0x4 => .sneImm (fieldX op) (fieldNN op)
  | 0x5 => .seReg (fieldX op) (fieldY op) (fieldN op)
  | 0x6 => .ldImm (fieldX op) (fieldNN op)
  | 0x7 => .addImm (fieldX op) (fieldNN op)
  | 0x8 => decode8 (fieldX op) (fieldY op) (fieldN op)
  | 0x9 => .sneReg (fieldX op) (fieldY op) (fieldN op)
  | 0xA => .ldI (fieldNNN op)
  | 0xB => .jpV0 (fieldNNN op)
  | 0xC => .rnd (fieldX op) (fieldNN op)
  | 0xD => .drw (fieldX op) (fieldY op) (fieldN op)
  | 0xE => decodeE (fieldX op) (fieldNN op)
  | _   => decodeF (fieldX op) (fieldNN op)

/-- Why bytes decode to no instruction: there are fewer than the two of one opcode (rule R100).
No two bytes are refused (rules R107, R108). -/
inductive DecodeError where
  | truncated
  deriving DecidableEq, Repr

/-- An opcode from its two bytes, the first being bits 15:8 (rule R71). -/
def joinBytes (hi lo : Byte) : Word := hi ++ lo

/-- Decode one instruction from the front of a list of bytes and answer the rest. -/
def decode : List Byte → Except DecodeError (Instr × List Byte)
  | hi :: lo :: rest => .ok (decodeWord (joinBytes hi lo), rest)
  | _ => .error .truncated

/-! The encoder, from the formats of rule R102 and the opcode map of rule R106. -/

/-- A register index as its 4-bit field. -/
def regBits (r : Reg) : Nib := BitVec.ofFin r

/-- Format A: a family and a 12-bit address (rule R102). -/
def formatA (f : Nib) (nnn : Addr12) : Word := f ++ nnn

/-- Formats XB and XS: a family, a nibble and a byte (rule R102). -/
def formatXB (f x : Nib) (nn : Byte) : Word := f ++ x ++ nn

/-- Format XYN: four nibbles (rule R102). -/
def formatXYN (f x y n : Nib) : Word := f ++ x ++ y ++ n

/-- The opcode word of an instruction. -/
def encode : Instr → Word
  | .cls z => formatXB 0x0 z 0xE0
  | .ret z => formatXB 0x0 z 0xEE
  | .nop0 z s => formatXB 0x0 z s
  | .jp nnn => formatA 0x1 nnn
  | .call nnn => formatA 0x2 nnn
  | .seImm x nn => formatXB 0x3 (regBits x) nn
  | .sneImm x nn => formatXB 0x4 (regBits x) nn
  | .seReg x y z => formatXYN 0x5 (regBits x) (regBits y) z
  | .ldImm x nn => formatXB 0x6 (regBits x) nn
  | .addImm x nn => formatXB 0x7 (regBits x) nn
  | .ldReg x y => formatXYN 0x8 (regBits x) (regBits y) 0x0
  | .orReg x y => formatXYN 0x8 (regBits x) (regBits y) 0x1
  | .andReg x y => formatXYN 0x8 (regBits x) (regBits y) 0x2
  | .xorReg x y => formatXYN 0x8 (regBits x) (regBits y) 0x3
  | .addReg x y => formatXYN 0x8 (regBits x) (regBits y) 0x4
  | .subReg x y => formatXYN 0x8 (regBits x) (regBits y) 0x5
  | .nop8n6 x y => formatXYN 0x8 (regBits x) (regBits y) 0x6
  | .nop8n7 x y => formatXYN 0x8 (regBits x) (regBits y) 0x7
  | .nop8n8 x y => formatXYN 0x8 (regBits x) (regBits y) 0x8
  | .nop8n9 x y => formatXYN 0x8 (regBits x) (regBits y) 0x9
  | .nop8nA x y => formatXYN 0x8 (regBits x) (regBits y) 0xA
  | .nop8nB x y => formatXYN 0x8 (regBits x) (regBits y) 0xB
  | .nop8nC x y => formatXYN 0x8 (regBits x) (regBits y) 0xC
  | .nop8nD x y => formatXYN 0x8 (regBits x) (regBits y) 0xD
  | .nop8nE x y => formatXYN 0x8 (regBits x) (regBits y) 0xE
  | .nop8nF x y => formatXYN 0x8 (regBits x) (regBits y) 0xF
  | .sneReg x y z => formatXYN 0x9 (regBits x) (regBits y) z
  | .ldI nnn => formatA 0xA nnn
  | .jpV0 nnn => formatA 0xB nnn
  | .rnd x nn => formatXB 0xC (regBits x) nn
  | .drw x y n => formatXYN 0xD (regBits x) (regBits y) n
  | .skp x => formatXB 0xE (regBits x) 0x9E
  | .sknp x => formatXB 0xE (regBits x) 0xA1
  | .nopE x s => formatXB 0xE (regBits x) s
  | .ldVxDt x => formatXB 0xF (regBits x) 0x07
  | .ldVxK x => formatXB 0xF (regBits x) 0x0A
  | .ldDtVx x => formatXB 0xF (regBits x) 0x15
  | .ldStVx x => formatXB 0xF (regBits x) 0x18
  | .addI x => formatXB 0xF (regBits x) 0x1E
  | .ldF x => formatXB 0xF (regBits x) 0x29
  | .ldB x => formatXB 0xF (regBits x) 0x33
  | .storeRegs x => formatXB 0xF (regBits x) 0x55
  | .loadRegs x => formatXB 0xF (regBits x) 0x65
  | .nopF x s => formatXB 0xF (regBits x) s

/-- The two bytes of an opcode in the order memory holds them, bits 15:8 first (rule R71). -/
def wordBytes (op : Word) : List Byte := [op.extractLsb' 8 8, op.extractLsb' 0 8]

/-! The opcode table itself, for statements that hold the decoder against it. -/

/-- One row of opcode_table.json: the words it takes are those `op` with `op AND mask = pattern`.
A `catchAll` row takes such a word only when no other row of its family does (rule R106). -/
structure OpcodeRow where
  mask     : Word
  pattern  : Word
  catchAll : Bool
  deriving DecidableEq, Repr

/-- Whether a row's mask and pattern fit a word. -/
def OpcodeRow.fits (r : OpcodeRow) (op : Word) : Bool := op &&& r.mask == r.pattern

/-- The row of opcode_table.json that a constructor stands for: its mask, match and default mark. -/
def Instr.row : Instr → OpcodeRow
  | .cls _ => ⟨0xF0FF, 0x00E0, false⟩
  | .ret _ => ⟨0xF0FF, 0x00EE, false⟩
  | .nop0 _ _ => ⟨0xF000, 0x0000, true⟩
  | .jp _ => ⟨0xF000, 0x1000, false⟩
  | .call _ => ⟨0xF000, 0x2000, false⟩
  | .seImm _ _ => ⟨0xF000, 0x3000, false⟩
  | .sneImm _ _ => ⟨0xF000, 0x4000, false⟩
  | .seReg _ _ _ => ⟨0xF000, 0x5000, false⟩
  | .ldImm _ _ => ⟨0xF000, 0x6000, false⟩
  | .addImm _ _ => ⟨0xF000, 0x7000, false⟩
  | .ldReg _ _ => ⟨0xF00F, 0x8000, false⟩
  | .orReg _ _ => ⟨0xF00F, 0x8001, false⟩
  | .andReg _ _ => ⟨0xF00F, 0x8002, false⟩
  | .xorReg _ _ => ⟨0xF00F, 0x8003, false⟩
  | .addReg _ _ => ⟨0xF00F, 0x8004, false⟩
  | .subReg _ _ => ⟨0xF00F, 0x8005, false⟩
  | .nop8n6 _ _ => ⟨0xF00F, 0x8006, false⟩
  | .nop8n7 _ _ => ⟨0xF00F, 0x8007, false⟩
  | .nop8n8 _ _ => ⟨0xF00F, 0x8008, false⟩
  | .nop8n9 _ _ => ⟨0xF00F, 0x8009, false⟩
  | .nop8nA _ _ => ⟨0xF00F, 0x800A, false⟩
  | .nop8nB _ _ => ⟨0xF00F, 0x800B, false⟩
  | .nop8nC _ _ => ⟨0xF00F, 0x800C, false⟩
  | .nop8nD _ _ => ⟨0xF00F, 0x800D, false⟩
  | .nop8nE _ _ => ⟨0xF00F, 0x800E, false⟩
  | .nop8nF _ _ => ⟨0xF00F, 0x800F, false⟩
  | .sneReg _ _ _ => ⟨0xF000, 0x9000, false⟩
  | .ldI _ => ⟨0xF000, 0xA000, false⟩
  | .jpV0 _ => ⟨0xF000, 0xB000, false⟩
  | .rnd _ _ => ⟨0xF000, 0xC000, false⟩
  | .drw _ _ _ => ⟨0xF000, 0xD000, false⟩
  | .skp _ => ⟨0xF0FF, 0xE09E, false⟩
  | .sknp _ => ⟨0xF0FF, 0xE0A1, false⟩
  | .nopE _ _ => ⟨0xF000, 0xE000, true⟩
  | .ldVxDt _ => ⟨0xF0FF, 0xF007, false⟩
  | .ldVxK _ => ⟨0xF0FF, 0xF00A, false⟩
  | .ldDtVx _ => ⟨0xF0FF, 0xF015, false⟩
  | .ldStVx _ => ⟨0xF0FF, 0xF018, false⟩
  | .addI _ => ⟨0xF0FF, 0xF01E, false⟩
  | .ldF _ => ⟨0xF0FF, 0xF029, false⟩
  | .ldB _ => ⟨0xF0FF, 0xF033, false⟩
  | .storeRegs _ => ⟨0xF0FF, 0xF055, false⟩
  | .loadRegs _ => ⟨0xF0FF, 0xF065, false⟩
  | .nopF _ _ => ⟨0xF000, 0xF000, true⟩

/-- The opcode whose low `nbits` bits, numbered as opcode_table.json numbers them, are those of `w`; the rest are 0. -/
def tableWord (nbits w : Nat) : Word := BitVec.ofNat 16 (w % 2 ^ nbits)

/-- The instruction the decoder reads from an instruction whose table-numbered bits are `w`. -/
def decodeTableWord (nbits w : Nat) : Option Instr :=
  match decode (wordBytes (tableWord nbits w)) with
  | .ok (i, _) => some i
  | .error _ => none

end Sys2Proof
end

