-- ==== Sys2Proof/Config.lean ====
section
/-! DEFINITION. The seven parameters of rule R10: six policies and sizes as one record of plain data, and the random draw as an opaque free value. -/
namespace Sys2Proof.Config

/-- `MEM_OOR_POLICY` (rule R73): what an access at an address of 4096 or more does. -/
inductive MemOorPolicy where
  | wrap
  | fault
  deriving DecidableEq, Repr

/-- `VF_OPERAND_TIMING` (rules R210, R270): when an operand held in VF is read. -/
inductive VfTiming where
  | snapshot
  | sequential
  deriving DecidableEq, Repr

/-- `FONT_REGION_WRITES` (rule R75): what a write below 0x050 does. -/
inductive FontWrites where
  | discard
  | write
  | fault
  deriving DecidableEq, Repr

/-- `KEY_OOR_POLICY` (rule R295): what a key index of 16 or more does. -/
inductive KeyOorPolicy where
  | notPressed
  | fault
  deriving DecidableEq, Repr

/-- `STACK_CAPACITY` (rule R42). -/
inductive StackCapacity where
  | unbounded
  | bounded (n : Nat)
  deriving DecidableEq, Repr

/-- The parameters of rule R10 except the random draw.
They are arguments of the model: State carries one record of them, no step writes it, and a statement that does not
fix a parameter holds for every value of it. -/
structure Params where
  memOor        : MemOorPolicy
  vfTiming      : VfTiming
  glyphs        : GlyphTable
  fontWrites    : FontWrites
  keyOor        : KeyOorPolicy
  stackCapacity : StackCapacity
  deriving DecidableEq, Repr

/-- Rule R10's bound on `STACK_CAPACITY`: a bounded stack has room for at least one entry. -/
def Params.legal (p : Params) : Bool :=
  match p.stackCapacity with
  | .unbounded => true
  | .bounded n => decide (1 ≤ n)

/-- `RNG`, the draw of rules R16 and R208: the k-th random byte, a free value.
It has no body, so no proof can see any byte of it and every statement holds for every sequence of draws. -/
opaque randomByte : Nat → Byte

end Sys2Proof.Config
end

