-- ==== Sys2Proof/Machine/Defaults.lean ====
section
/-! DEFINITION. The default values of the parameters (rule R10), the default glyph table (rule R44), and what memory holds after Initialize (rules R54, R78). -/
namespace Sys2Proof.Machine

/-- The default `GLYPH_TABLE` of rule R44. PRESUMED by the spec (general knowledge G1), safe in statements that do not fix the table. -/
def defaultGlyphs : GlyphTable := #v[
  0xF0, 0x90, 0x90, 0x90, 0xF0,
  0x20, 0x60, 0x20, 0x20, 0x70,
  0xF0, 0x10, 0xF0, 0x80, 0xF0,
  0xF0, 0x10, 0xF0, 0x10, 0xF0,
  0x90, 0x90, 0xF0, 0x10, 0x10,
  0xF0, 0x80, 0xF0, 0x10, 0xF0,
  0xF0, 0x80, 0xF0, 0x90, 0xF0,
  0xF0, 0x10, 0x20, 0x40, 0x40,
  0xF0, 0x90, 0xF0, 0x90, 0xF0,
  0xF0, 0x90, 0xF0, 0x10, 0xF0,
  0xF0, 0x90, 0xF0, 0x90, 0x90,
  0xE0, 0x90, 0xE0, 0x90, 0xE0,
  0xF0, 0x80, 0x80, 0x80, 0xF0,
  0xE0, 0x90, 0x90, 0x90, 0xE0,
  0xF0, 0x80, 0xF0, 0x80, 0xF0,
  0xF0, 0x80, 0xF0, 0x80, 0x80]

/-- The default of every parameter (rule R10). -/
def defaultParams : Config.Params where
  memOor        := .wrap
  vfTiming      := .snapshot
  glyphs        := defaultGlyphs
  fontWrites    := .discard
  keyOor        := .notPressed
  stackCapacity := .unbounded

/-- `MEM_SIZE` (rule R9). -/
def memSize : Nat := 4096

/-- `PROG_START` as an address (rule R9). -/
def progStart : Nat := 0x200

/-- The number of bytes of the glyph table, which begins at address 0 (rules R9, R44). -/
def glyphBytes : Nat := 80

/-- What a byte of memory holds after Initialize: the glyph table below 0x050, and 0 elsewhere (rules R54, R78).
This is what an address that memory does not list reads as. -/
def resetByte (g : GlyphTable) (a : Nat) : Byte :=
  if h : a < 80 then g[a] else 0

end Sys2Proof.Machine
end

