-- ==== Sys2Proof/Machine/State.lean ====
section
/-! DEFINITION. The state of the machine (rule R54), the reasons of a fault (rule R340), the step's status (rule R140) and the state after Initialize (rule R380). -/
namespace Sys2Proof.Machine

/-- The step faults of rule R340.
A raise is modelled whole, as the spec's own fault entry (rules R15, R344): a NEXT state whose fault status is the
reason.
So a value of this type stands in `State.fault`; no step answers `Outcome.fault`, which would throw the state away. -/
inductive Fault where
  /-- Raised by RET on an empty stack (rule R170). Taken as the spec describes, so safe. -/
  | stackUnderflow
  /-- Raised by a fetch, DRW, LD B, LD [I] or LD Vx, [I] at an address of 4096 or more under `MEM_OOR_POLICY = fault` (rule R73). Safe. -/
  | addressOutOfRange (a : Nat)
  /-- Raised by LD B or LD [I] writing below 0x050 under `FONT_REGION_WRITES = fault` (rule R75). Safe. -/
  | fontRegionWrite (a : Nat)
  /-- Raised by CALL with the stack at `STACK_CAPACITY` (rule R172). Safe. -/
  | stackOverflow
  /-- Raised by SKP and SKNP on a key index of 16 or more under `KEY_OOR_POLICY = fault` (rule R295). Safe. -/
  | keyIndexOutOfRange (v : Byte)
  deriving DecidableEq, Repr

/-- Why an instruction has no meaning in the model. -/
inductive Refusal where
  /-- Answered by an arm of `exec` whose instruction has no meaning yet; no arm does. Safe. -/
  | notModelled (mnemonic : String)
  deriving DecidableEq, Repr

/-- The result of one Step call (rule R140). -/
inductive Status where
  | running
  | halted
  | awaitingKey
  | fault (r : Fault)
  deriving DecidableEq, Repr

/-- The 4096 bytes of memory, as the list of those that differ from their value after Initialize.
The canonical form is `Memory.wf`. -/
abbrev Memory := List Host.Cell

/-- The canonical form: addresses strictly rising and inside memory, no entry equal to what its address reads as when
unlisted. Equal memories are then equal lists. -/
abbrev Memory.wf (g : GlyphTable) (m : Memory) : Prop :=
  m.Pairwise (fun p q => p.1 < q.1) ∧ ∀ c ∈ m, c.1 < 4096 ∧ c.2 ≠ resetByte g c.1

/-- Everything rule R54 gives the machine, and four fields of the model's own (`cfg`, `draws`, `keyInputs`, `status`). -/
structure State where
  /-- The parameters of rule R10; no step writes them. -/
  cfg       : Config.Params
  /-- V0..VF (rule R30). -/
  regs      : Vector Byte 16
  /-- The index register I (rule R38). -/
  index     : Word
  /-- The program counter (rule R33). -/
  pc        : Word
  /-- The call stack, its head the top (rules R13, R41). -/
  stack     : List Word
  /-- The delay timer DT (rule R39). -/
  dt        : Byte
  /-- The sound timer ST (rule R40). -/
  st        : Byte
  /-- Memory (rule R43). -/
  mem       : Memory
  /-- The framebuffer, cell (x, y) at `x + y*64` (rule R45). -/
  fb        : Vector Bool 2048
  /-- The redraw flag (rule R46). -/
  redraw    : Bool
  /-- The program end marker `end` (rule R50). -/
  progEnd   : Word
  /-- The wait-for-key state (rule R51). -/
  await     : Option Reg
  /-- The fault status (rule R52). -/
  fault     : Option Fault
  /-- The model's own: how many random bytes have been drawn, the argument of the free value `Config.randomByte`. -/
  draws     : Nat
  /-- The model's own: the key vectors of the coming Step calls, the next call's first (rules R17, R47). -/
  keyInputs : List Keys
  /-- The model's own: the result of the last Step call (rule R140). -/
  status    : Status
  deriving DecidableEq, Repr

/-- The state after Initialize under given parameters (rules R54, R380). -/
def State.afterInit (p : Config.Params) : State where
  cfg       := p
  regs      := Vector.replicate 16 0
  index     := 0
  pc        := 0x200
  stack     := []
  dt        := 0
  st        := 0
  mem       := []
  fb        := Vector.replicate 2048 false
  redraw    := false
  progEnd   := 0
  await     := none
  fault     := none
  draws     := 0
  keyInputs := []
  status    := .running

/-- The machine right after Initialize, under the default parameters (rules R10, R380). -/
def State.reset : State := State.afterInit defaultParams

end Sys2Proof.Machine
end

