-- ==== Sys2Proof/Machine/Ops.lean ====
section
/-! DEFINITION. The named operations: registers, memory (R73, R75), the stack, the framebuffer, raising a fault (R15, R344), and the parts of a step around its instruction (R142). -/
namespace Sys2Proof.Machine

/-- What a step, and a meaning, answers. -/
abbrev Result := Host.Outcome State Fault Refusal

/-! ### One field at a time -/

/-- `V[r]` (rule R13). -/
def State.reg (s : State) (r : Reg) : Byte := s.regs[r.val]

/-- `V[r] <- v` (rule R13). -/
def State.setReg (s : State) (r : Reg) (v : Byte) : State := { s with regs := s.regs.set r.val v }

/-- `I <- v` (rule R13). -/
def State.setIndex (s : State) (v : Word) : State := { s with index := v }

/-- `pc <- v` (rule R13). -/
def State.setPc (s : State) (v : Word) : State := { s with pc := v }

/-- Replace the call stack. -/
def State.setStack (s : State) (l : List Word) : State := { s with stack := l }

/-- `DT <- v`. -/
def State.setDt (s : State) (v : Byte) : State := { s with dt := v }

/-- `ST <- v`. -/
def State.setSt (s : State) (v : Byte) : State := { s with st := v }

/-- Replace memory. -/
def State.setMem (s : State) (m : Memory) : State := { s with mem := m }

/-- Replace the framebuffer. -/
def State.setFb (s : State) (f : Vector Bool 2048) : State := { s with fb := f }

/-- `redraw <- b`. -/
def State.setRedraw (s : State) (b : Bool) : State := { s with redraw := b }

/-- `end <- v`. -/
def State.setProgEnd (s : State) (v : Word) : State := { s with progEnd := v }

/-- `await <- o` (rule R51). -/
def State.setAwait (s : State) (o : Option Reg) : State := { s with await := o }

/-- Set or clear the fault status (rule R52). -/
def State.setFault (s : State) (o : Option Fault) : State := { s with fault := o }

/-- Count one more random draw. -/
def State.countDraw (s : State) : State := { s with draws := s.draws + 1 }

/-- End a Step call: its status is `r` and its key vector is used up. -/
def State.finish (s : State) (r : Status) : State := { s with status := r, keyInputs := s.keyInputs.tail }

/-- The spec's number for a fault reason (rule R340). -/
def Fault.code : Fault → Nat
  | .stackUnderflow => 1
  | .addressOutOfRange _ => 2
  | .fontRegionWrite _ => 3
  | .stackOverflow => 4
  | .keyIndexOutOfRange _ => 5

/-! ### Raising a fault (rules R15, R344): the one place where the fault status is set -/

/-- Fault entry: no vector, no saved register, no mode; the fault status becomes the reason and everything the step did
before stays. -/
def State.raise (s : State) (r : Fault) : State := s.setFault (some r)

/-- How far an instruction of several accesses has come: through, or stopped by a raise in the given state. -/
inductive Progress where
  | done (s : State)
  | raised (r : Fault) (s : State)
  deriving DecidableEq, Repr

/-- The meaning's answer: the state reached, with the fault entered where one was raised (rule R15). -/
def Progress.answer : Progress → Result
  | .done s => .next s
  | .raised r s => .next (s.raise r)

/-- Go on only if nothing was raised. -/
def Progress.andThen (p : Progress) (f : State → State) : Progress :=
  match p with
  | .done s => .done (f s)
  | .raised r s => .raised r s

/-! ### Memory as a list of cells -/

/-- The listed byte at an address. -/
def Memory.find : Memory → Nat → Option Byte
  | [], _ => none
  | c :: m, a => if c.1 = a then some c.2 else Memory.find m a

/-- One byte: the listed one, or what the address holds after Initialize. -/
def Memory.peek (g : GlyphTable) (m : Memory) (a : Nat) : Byte :=
  match Memory.find m a with
  | some b => b
  | none => resetByte g a

/-- List a byte at its place in the rising order. -/
def Memory.insert : Memory → Nat → Byte → Memory
  | [], a, b => [(a, b)]
  | c :: m, a, b =>
    if a < c.1 then (a, b) :: c :: m
    else if a = c.1 then (a, b) :: m
    else c :: Memory.insert m a b

/-- Drop an address from the list. -/
def Memory.erase (m : Memory) (a : Nat) : Memory := m.filter (fun c => c.1 != a)

/-- Store one byte, keeping the canonical form. -/
def Memory.poke (g : GlyphTable) (m : Memory) (a : Nat) (b : Byte) : Memory :=
  if b = resetByte g a then Memory.erase m a else Memory.insert m a b

/-- Store bytes at consecutive addresses, past every rule on writes (rules R380, R382). -/
def Memory.pokeAll (g : GlyphTable) : Memory → Nat → List Byte → Memory
  | m, _, [] => m
  | m, a, b :: bs => Memory.pokeAll g (Memory.poke g m a b) (a + 1) bs

/-! ### Memory accesses of the machine (rules R73, R75) -/

/-- The byte at an address of memory. -/
def State.byteAt (s : State) (a : Nat) : Byte := Memory.peek s.cfg.glyphs s.mem a

/-- `reduce` of rule R73. -/
def reduce (p : Config.MemOorPolicy) (a : Nat) : Except Fault Nat :=
  match p with
  | .wrap => .ok (a % 4096)
  | .fault => if 4096 ≤ a then .error (.addressOutOfRange a) else .ok a

/-- `MemRead(a, 1)` (rules R14, R75). -/
def State.memRead (s : State) (a : Nat) : Except Fault Byte :=
  match reduce s.cfg.memOor a with
  | .ok b => .ok (s.byteAt b)
  | .error r => .error r

/-- Store at a reduced address with no rule applied. -/
def State.pokeByte (s : State) (a : Nat) (v : Byte) : State := s.setMem (Memory.poke s.cfg.glyphs s.mem a v)

/-- `MemWrite(a, 1, v)` (rule R75). -/
def State.memWrite (s : State) (a : Nat) (v : Byte) : Except Fault State :=
  match reduce s.cfg.memOor a with
  | .error r => .error r
  | .ok b =>
    if b < 0x50 then
      match s.cfg.fontWrites with
      | .discard => .ok s
      | .write => .ok (s.pokeByte b v)
      | .fault => .error (.fontRegionWrite b)
    else .ok (s.pokeByte b v)

/-- Write bytes at `a`, `a + 1`, … in that order, up to the first raise (rules R76, R233, R237). -/
def writeBytes : State → Nat → List Byte → Progress
  | s, _, [] => .done s
  | s, a, v :: vs =>
    match s.memWrite a v with
    | .ok s' => writeBytes s' (a + 1) vs
    | .error r => .raised r s

/-- Read `a`, `a + 1`, … into the listed registers in that order, up to the first raise (rules R76, R234). -/
def readRegs : State → Nat → List Reg → Progress
  | s, _, [] => .done s
  | s, a, r :: rs =>
    match s.memRead a with
    | .ok v => readRegs (s.setReg r v) (a + 1) rs
    | .error f => .raised f s

/-! ### The call stack (rules R41, R42) -/

/-- Whether CALL finds no room: the stack holds exactly `STACK_CAPACITY` entries (rule R172). -/
def State.stackFull (s : State) : Bool :=
  match s.cfg.stackCapacity with
  | .unbounded => false
  | .bounded n => s.stack.length == n

/-! ### The framebuffer (rules R45, R267) -/

/-- `fb[k]` (rule R13). -/
def State.cell (s : State) (k : Nat) : Bool := s.fb[k]?.getD false

/-- `fb[k] <- fb[k] XOR 1`. -/
def State.flipCell (s : State) (k : Nat) : State := s.setFb (s.fb.setIfInBounds k (!s.cell k))

/-! ### Keys (rules R17, R295, R298) -/

/-- A vector with no key pressed. -/
def noKeys : Keys := Vector.replicate 16 false

/-- The key vector of the current Step call; a call for which none is listed has no key pressed. -/
def State.keys (s : State) : Keys := s.keyInputs.headD noKeys

/-- The least pressed key (rule R298). -/
def leastKey (k : Keys) : Option Reg := (List.finRange 16).find? (fun r => k[r.val])

/-! ### The parts of a step (rule R142) -/

/-- One timer's decrement, stopping at 0 (rule R145). -/
def decrement (t : Byte) : Byte := if 0 < t then t - 1 else t

/-- Part 4: both timers are decremented (rule R145). -/
def State.tick (s : State) : State := (s.setSt (decrement s.st)).setDt (decrement s.dt)

/-- Part 5: the big-endian opcode at pc and pc + 1, each address reduced on its own (rules R71, R72, R146). -/
def State.fetch (s : State) : Except Fault Word :=
  match s.memRead s.pc.toNat with
  | .error r => .error r
  | .ok hi =>
    match s.memRead (s.pc.toNat + 1) with
    | .error r => .error r
    | .ok lo => .ok (joinBytes hi lo)

/-- `pc <- (pc + 2) mod 65536`: part 6, and the extra 2 of a skip (rules R147, R178). -/
def State.advance (s : State) : State := s.setPc (s.pc + 2)

/-- Part 2: a step that waits, or completes the wait, and does nothing else (rule R297). -/
def State.completeWait (s : State) (x : Reg) : State :=
  match leastKey s.keys with
  | none => s.finish .awaitingKey
  | some k => ((s.setReg x (BitVec.ofNat 8 k.val)).setAwait none).finish .running

/-- Part 8: the status of a step that ran its instruction, or that was ended by a raise (rules R15, R149). -/
def State.executedStatus (s : State) : Status :=
  match s.fault with
  | some r => .fault r
  | none => if s.await.isSome then .awaitingKey else .running

/-- Part 8: end the call with that status. -/
def State.conclude (s : State) : State := s.finish s.executedStatus

/-- Change the state of a next state; a fault or a refusal passes through. -/
def onNext (f : State → State) : Result → Result
  | .next s => .next (f s)
  | .fault r => .fault r
  | .refused r => .refused r

/-! ### Placing an opcode where the next step fetches it -/

/-- Clear whatever keeps the next step from fetching: a fault status (R143), a wait (R142), pc at the end marker (R144),
and, where addresses do not wrap, a pc with no two bytes to fetch (R146). Everything else is left alone. -/
def State.readyToFetch (s : State) : State :=
  let pc := if s.cfg.memOor = .fault ∧ 0xFFF ≤ s.pc.toNat then 0x200 else s.pc
  let e := if s.progEnd = pc then (if pc = 0x1000 then 0x200 else 0x1000) else s.progEnd
  (((s.setFault none).setAwait none).setPc pc).setProgEnd e

/-- Store an opcode's two bytes where the fetch reads them (rules R71, R72), past the glyph-region rule. -/
def State.placeOpcode (s : State) (op : Word) : State :=
  (s.pokeByte (s.pc.toNat % 4096) (op.extractLsb' 8 8)).pokeByte ((s.pc.toNat + 1) % 4096) (op.extractLsb' 0 8)

end Sys2Proof.Machine
end

