-- ==== Sys2Proof/Machine/Operands.lean ====
section
/-! DEFINITION. The operand forms: immediates (R103), the register range V0..Vx, the data address I + k (R232), the hex-digit map (R235), the decimal digits (R237), key tests (R295) and the skip (R178). -/
namespace Sys2Proof.Machine

/-- `zext_16(NNN)` (rule R103). -/
def zext16 (nnn : Addr12) : Word := nnn.setWidth 16

/-- The registers V0..Vx in order (rules R103, R233, R234). -/
def regsUpTo (x : Reg) : List Reg := (List.finRange 16).take (x.val + 1)

/-- The address of the first byte an instruction moves; the k-th is this plus k, a natural number (rule R232). -/
def State.dataAddr (s : State) : Nat := s.index.toNat

/-- The ASCII hex-digit map of rule R235. -/
def hexval (c : Byte) : Nat :=
  if 0x30 ≤ c.toNat ∧ c.toNat ≤ 0x39 then c.toNat - 0x30
  else if 0x61 ≤ c.toNat ∧ c.toNat ≤ 0x66 then c.toNat - 0x61 + 10
  else if 0x41 ≤ c.toNat ∧ c.toNat ≤ 0x46 then c.toNat - 0x41 + 10
  else 0

/-- The address of the glyph a character selects (rules R44, R236). -/
def glyphAddr (c : Byte) : Word := BitVec.ofNat 16 (hexval c * 5)

/-- The three ASCII decimal digits of a byte, hundreds first (rule R237). -/
def asciiDigits (v : Byte) : List Byte :=
  [BitVec.ofNat 8 (0x30 + v.toNat / 100),
   BitVec.ofNat 8 (0x30 + v.toNat / 10 % 10),
   BitVec.ofNat 8 (0x30 + v.toNat % 10)]

/-- `pressed(v)` of rule R295, in the key vector of the current call. -/
def State.pressed (s : State) (v : Byte) : Except Fault Bool :=
  if h : v.toNat < 16 then .ok s.keys[v.toNat]
  else match s.cfg.keyOor with
    | .notPressed => .ok false
    | .fault => .error (.keyIndexOutOfRange v)

/-- A conditional skip (rule R178). -/
def State.skipIf (s : State) (c : Bool) : State := if c then s.advance else s

/-- The draw of rule R16 that the current state's next CXNN makes. -/
def State.nextDraw (s : State) : Byte := Config.randomByte s.draws

end Sys2Proof.Machine
end

