-- ==== Sys2Proof/Machine/Flags.lean ====
section
/-! DEFINITION. The three computations of VF as a flag: carry (R206), no-borrow (R207) and collision (R265), with the operand timing of R210. -/
namespace Sys2Proof.Machine

/-- `flag` of rule R206: 1 when the unbounded sum exceeds 255. -/
def carry (a b : Byte) : Byte := if a.toNat + b.toNat > 255 then 1 else 0

/-- `res` of rule R206. -/
def sum8 (a b : Byte) : Byte := a + b

/-- `flag` of rule R207: 1 when the integer difference is not negative. -/
def noBorrow (a b : Byte) : Byte := if (a.toNat : Int) - (b.toNat : Int) < 0 then 0 else 1

/-- `res` of rule R207. -/
def diff8 (a b : Byte) : Byte := a - b

/-- Write VF, then Vx, reading the operands as `VF_OPERAND_TIMING` says (rule R210). -/
def State.flaggedOp (s : State) (flag res : Byte → Byte → Byte) (x y : Reg) : State :=
  match s.cfg.vfTiming with
  | .snapshot =>
    let a := s.reg x
    let b := s.reg y
    (s.setReg VF (flag a b)).setReg x (res a b)
  | .sequential =>
    let s' := s.setReg VF (flag (s.reg x) (s.reg y))
    s'.setReg x (res (s'.reg x) (s'.reg y))

/-- A set sprite bit meets the cell `k`: VF becomes 1 if the cell is lit, and otherwise keeps its value (rule R265). -/
def State.noteCollision (s : State) (k : Nat) : State := if s.cell k then s.setReg VF 1 else s

end Sys2Proof.Machine
end

