-- ==== Sys2Proof/Machine/Alu.lean ====
section
/-! DEFINITION. The register loads and the ALU (42_alu.md). -/
namespace Sys2Proof.Machine

/-- LD Vx, NN (rule R200). -/
def execLdImm (x : Reg) (nn : Byte) (s : State) : Result := .next (s.setReg x nn)

/-- ADD Vx, NN, which touches no flag (rule R201). -/
def execAddImm (x : Reg) (nn : Byte) (s : State) : Result := .next (s.setReg x (sum8 (s.reg x) nn))

/-- LD Vx, Vy (rule R202). -/
def execLdReg (x y : Reg) (s : State) : Result := .next (s.setReg x (s.reg y))

/-- OR Vx, Vy (rule R203). -/
def execOrReg (x y : Reg) (s : State) : Result := .next (s.setReg x (s.reg x ||| s.reg y))

/-- AND Vx, Vy (rule R204). -/
def execAndReg (x y : Reg) (s : State) : Result := .next (s.setReg x (s.reg x &&& s.reg y))

/-- XOR Vx, Vy (rule R205). -/
def execXorReg (x y : Reg) (s : State) : Result := .next (s.setReg x (s.reg x ^^^ s.reg y))

/-- ADD Vx, Vy (rule R206). -/
def execAddReg (x y : Reg) (s : State) : Result := .next (s.flaggedOp carry sum8 x y)

/-- SUB Vx, Vy (rule R207). -/
def execSubReg (x y : Reg) (s : State) : Result := .next (s.flaggedOp noBorrow diff8 x y)

/-- What RND does with the byte `r` it draws (rule R208). -/
def State.maskedDraw (s : State) (r : Byte) (x : Reg) (nn : Byte) : State := s.setReg x (r &&& nn)

/-- RND Vx, NN: the byte drawn is a free value (rules R16, R208). -/
def execRnd (x : Reg) (nn : Byte) (s : State) : Result := .next (s.maskedDraw s.nextDraw x nn).countDraw

end Sys2Proof.Machine
end

