-- ==== Sys2Proof/Machine/ControlFlow.lean ====
section
/-! DEFINITION. RET, JP, CALL, the register skips and JP V0 (41_control_flow.md). Every meaning runs with pc already past its opcode (rule R147). -/
namespace Sys2Proof.Machine

/-- RET (rule R170). -/
def execRet (_z : Nib) (s : State) : Result :=
  match s.stack with
  | [] => .next (s.raise .stackUnderflow)
  | a :: rest => .next ((s.setStack rest).setPc a)

/-- JP NNN (rule R171). -/
def execJp (nnn : Addr12) (s : State) : Result := .next (s.setPc (zext16 nnn))

/-- CALL NNN (rule R172). -/
def execCall (nnn : Addr12) (s : State) : Result :=
  if s.stackFull then .next (s.raise .stackOverflow)
  else .next ((s.setStack (s.pc :: s.stack)).setPc (zext16 nnn))

/-- SE Vx, NN (rule R173). -/
def execSeImm (x : Reg) (nn : Byte) (s : State) : Result := .next (s.skipIf (s.reg x == nn))

/-- SNE Vx, NN (rule R174). -/
def execSneImm (x : Reg) (nn : Byte) (s : State) : Result := .next (s.skipIf (s.reg x != nn))

/-- SE Vx, Vy (rule R175). -/
def execSeReg (x y : Reg) (_z : Nib) (s : State) : Result := .next (s.skipIf (s.reg x == s.reg y))

/-- SNE Vx, Vy (rule R176). -/
def execSneReg (x y : Reg) (_z : Nib) (s : State) : Result := .next (s.skipIf (s.reg x != s.reg y))

/-- JP V0, NNN: the register is V0 whatever the opcode's X field (rule R177). -/
def execJpV0 (nnn : Addr12) (s : State) : Result := .next (s.setPc (zext16 nnn + (s.reg 0).setWidth 16))

end Sys2Proof.Machine
end

