-- ==== Sys2Proof/Machine/Display.lean ====
section
/-! DEFINITION. CLS and the sprite blitter (44_display.md). -/
namespace Sys2Proof.Machine

/-- CLS (rule R260). -/
def execCls (_z : Nib) (s : State) : Result := .next ((s.setFb (Vector.replicate 2048 false)).setRedraw true)

/-- The sprite's origin at one cell: the values latched before VF was reset, or the registers as they now are (rule R270). -/
def State.origin (s : State) (x y : Reg) (latched : Byte × Byte) : Byte × Byte :=
  match s.cfg.vfTiming with
  | .snapshot => latched
  | .sequential => (s.reg x, s.reg y)

/-- Column `col` of a sprite row is bit `7 - col` of its byte (rule R266). -/
def spriteBit (b : Byte) (col : Nat) : Bool := b.getLsbD (7 - col)

/-- The inner loop's body: column `col` of row `row` (rules R262 to R265, R267). -/
def drawCell (x y : Reg) (latched : Byte × Byte) (row : Nat) (b : Byte) (s : State) (col : Nat) : State :=
  let o := s.origin x y latched
  let px := (o.1.toNat + col) % 256
  let py := (o.2.toNat + row) % 256
  if 64 ≤ px ∨ 32 ≤ py then s
  else if spriteBit b col then (s.noteCollision (px + py * 64)).flipCell (px + py * 64)
  else s

/-- The eight columns of one row (rule R262). -/
def drawRow (x y : Reg) (latched : Byte × Byte) (row : Nat) (b : Byte) (s : State) : State :=
  (List.range 8).foldl (drawCell x y latched row b) s

/-- `n` rows from `row` on, one sprite byte read for each, up to the first raise (rules R76, R262). -/
def drawRows (x y : Reg) (latched : Byte × Byte) : Nat → Nat → State → Progress
  | 0, _, s => .done s
  | n + 1, row, s =>
    match s.memRead (s.dataAddr + row) with
    | .ok b => drawRows x y latched n (row + 1) (drawRow x y latched row b s)
    | .error r => .raised r s

/-- DRW Vx, Vy, N (rules R261, R262). -/
def execDrw (x y : Reg) (n : Nib) (s : State) : Result :=
  ((drawRows x y (s.reg x, s.reg y) n.toNat 0 (s.setReg VF 0)).andThen (fun t => t.setRedraw true)).answer

end Sys2Proof.Machine
end

