-- ==== Sys2Proof/Machine/IndexMemory.lean ====
section
/-! DEFINITION. The index register and the memory transfers (43_index_memory.md). No transfer changes I (rule R238). -/
namespace Sys2Proof.Machine

/-- LD I, NNN (rule R230). -/
def execLdI (nnn : Addr12) (s : State) : Result := .next (s.setIndex (zext16 nnn))

/-- ADD I, Vx (rule R231). -/
def execAddI (x : Reg) (s : State) : Result := .next (s.setIndex (s.index + (s.reg x).setWidth 16))

/-- LD F, Vx (rule R236). -/
def execLdF (x : Reg) (s : State) : Result := .next (s.setIndex (glyphAddr (s.reg x)))

/-- LD B, Vx (rule R237). -/
def execLdB (x : Reg) (s : State) : Result := (writeBytes s s.dataAddr (asciiDigits (s.reg x))).answer

/-- LD [I], Vx (rule R233). -/
def execStoreRegs (x : Reg) (s : State) : Result := (writeBytes s s.dataAddr ((regsUpTo x).map s.reg)).answer

/-- LD Vx, [I] (rule R234). -/
def execLoadRegs (x : Reg) (s : State) : Result := (readRegs s s.dataAddr (regsUpTo x)).answer

end Sys2Proof.Machine
end

