-- ==== Sys2Proof/Machine/TimersKeys.lean ====
section
/-! DEFINITION. The timer and keypad instructions (45_timers_keys.md). -/
namespace Sys2Proof.Machine

/-- SKP Vx (rule R293). -/
def execSkp (x : Reg) (s : State) : Result :=
  match s.pressed (s.reg x) with
  | .ok b => .next (s.skipIf b)
  | .error r => .next (s.raise r)

/-- SKNP Vx (rule R294). -/
def execSknp (x : Reg) (s : State) : Result :=
  match s.pressed (s.reg x) with
  | .ok b => .next (s.skipIf (!b))
  | .error r => .next (s.raise r)

/-- LD Vx, DT (rule R290). -/
def execLdVxDt (x : Reg) (s : State) : Result := .next (s.setReg x s.dt)

/-- LD Vx, K, the issue of the wait; `State.completeWait` completes it in a later step (rule R296). -/
def execLdVxK (x : Reg) (s : State) : Result := .next (s.setAwait (some x))

/-- LD DT, Vx (rule R291). -/
def execLdDtVx (x : Reg) (s : State) : Result := .next (s.setDt (s.reg x))

/-- LD ST, Vx (rule R292). -/
def execLdStVx (x : Reg) (s : State) : Result := .next (s.setSt (s.reg x))

end Sys2Proof.Machine
end

