-- ==== Sys2Proof/Machine/Unrecognized.lean ====
section
/-! DEFINITION. The unrecognized encodings, all no-ops (46_unrecognized.md). -/
namespace Sys2Proof.Machine

/-- The effect of every no-op: the instruction itself changes nothing (rule R324). -/
def noOperation (s : State) : Result := .next s

/-- NOP0 (rule R321). -/
def execNop0 (_z : Nib) (_f : Byte) (s : State) : Result := noOperation s

/-- NOP8 with low nibble 6 (rule R320). -/
def execNop8n6 (_x _y : Reg) (s : State) : Result := noOperation s

/-- NOP8 with low nibble 7 (rule R320). -/
def execNop8n7 (_x _y : Reg) (s : State) : Result := noOperation s

/-- NOP8 with low nibble 8 (rule R320). -/
def execNop8n8 (_x _y : Reg) (s : State) : Result := noOperation s

/-- NOP8 with low nibble 9 (rule R320). -/
def execNop8n9 (_x _y : Reg) (s : State) : Result := noOperation s

/-- NOP8 with low nibble A (rule R320). -/
def execNop8nA (_x _y : Reg) (s : State) : Result := noOperation s

/-- NOP8 with low nibble B (rule R320). -/
def execNop8nB (_x _y : Reg) (s : State) : Result := noOperation s

/-- NOP8 with low nibble C (rule R320). -/
def execNop8nC (_x _y : Reg) (s : State) : Result := noOperation s

/-- NOP8 with low nibble D (rule R320). -/
def execNop8nD (_x _y : Reg) (s : State) : Result := noOperation s

/-- NOP8 with low nibble E (rule R320). -/
def execNop8nE (_x _y : Reg) (s : State) : Result := noOperation s

/-- NOP8 with low nibble F (rule R320). -/
def execNop8nF (_x _y : Reg) (s : State) : Result := noOperation s

/-- NOPE (rule R322). -/
def execNopE (_x : Reg) (_f : Byte) (s : State) : Result := noOperation s

/-- NOPF (rule R323). -/
def execNopF (_x : Reg) (_f : Byte) (s : State) : Result := noOperation s

end Sys2Proof.Machine
end

