-- ==== Sys2Proof/Machine/Dispatch.lean ====
section
/-! DEFINITION. Part 7 of a step: one arm per constructor of Instr, each one direct call of its meaning (rule R148). -/
namespace Sys2Proof.Machine

def exec (i : Instr) (s : State) : Host.Outcome State Fault Refusal :=
  match i with
  | .cls z => Sys2Proof.Machine.execCls z s
  | .ret z => Sys2Proof.Machine.execRet z s
  | .nop0 z f => Sys2Proof.Machine.execNop0 z f s
  | .jp nnn => Sys2Proof.Machine.execJp nnn s
  | .call nnn => Sys2Proof.Machine.execCall nnn s
  | .seImm x nn => Sys2Proof.Machine.execSeImm x nn s
  | .sneImm x nn => Sys2Proof.Machine.execSneImm x nn s
  | .seReg x y z => Sys2Proof.Machine.execSeReg x y z s
  | .ldImm x nn => Sys2Proof.Machine.execLdImm x nn s
  | .addImm x nn => Sys2Proof.Machine.execAddImm x nn s
  | .ldReg x y => Sys2Proof.Machine.execLdReg x y s
  | .orReg x y => Sys2Proof.Machine.execOrReg x y s
  | .andReg x y => Sys2Proof.Machine.execAndReg x y s
  | .xorReg x y => Sys2Proof.Machine.execXorReg x y s
  | .addReg x y => Sys2Proof.Machine.execAddReg x y s
  | .subReg x y => Sys2Proof.Machine.execSubReg x y s
  | .nop8n6 x y => Sys2Proof.Machine.execNop8n6 x y s
  | .nop8n7 x y => Sys2Proof.Machine.execNop8n7 x y s
  | .nop8n8 x y => Sys2Proof.Machine.execNop8n8 x y s
  | .nop8n9 x y => Sys2Proof.Machine.execNop8n9 x y s
  | .nop8nA x y => Sys2Proof.Machine.execNop8nA x y s
  | .nop8nB x y => Sys2Proof.Machine.execNop8nB x y s
  | .nop8nC x y => Sys2Proof.Machine.execNop8nC x y s
  | .nop8nD x y => Sys2Proof.Machine.execNop8nD x y s
  | .nop8nE x y => Sys2Proof.Machine.execNop8nE x y s
  | .nop8nF x y => Sys2Proof.Machine.execNop8nF x y s
  | .sneReg x y z => Sys2Proof.Machine.execSneReg x y z s
  | .ldI nnn => Sys2Proof.Machine.execLdI nnn s
  | .jpV0 nnn => Sys2Proof.Machine.execJpV0 nnn s
  | .rnd x nn => Sys2Proof.Machine.execRnd x nn s
  | .drw x y n => Sys2Proof.Machine.execDrw x y n s
  | .skp x => Sys2Proof.Machine.execSkp x s
  | .sknp x => Sys2Proof.Machine.execSknp x s
  | .nopE x f => Sys2Proof.Machine.execNopE x f s
  | .ldVxDt x => Sys2Proof.Machine.execLdVxDt x s
  | .ldVxK x => Sys2Proof.Machine.execLdVxK x s
  | .ldDtVx x => Sys2Proof.Machine.execLdDtVx x s
  | .ldStVx x => Sys2Proof.Machine.execLdStVx x s
  | .addI x => Sys2Proof.Machine.execAddI x s
  | .ldF x => Sys2Proof.Machine.execLdF x s
  | .ldB x => Sys2Proof.Machine.execLdB x s
  | .storeRegs x => Sys2Proof.Machine.execStoreRegs x s
  | .loadRegs x => Sys2Proof.Machine.execLoadRegs x s
  | .nopF x f => Sys2Proof.Machine.execNopF x f s

end Sys2Proof.Machine
end

