-- ==== Sys2Proof/Machine/Cycle.lean ====
section
/-! DEFINITION. The whole step of rule R142. -/
namespace Sys2Proof.Machine

/-- Parts 4 to 8: decrement the timers, fetch, advance pc, execute, and end the call (rules R145 to R149). -/
def runInstruction (s : State) : Result :=
  match s.tick.fetch with
  | .error r => .next (s.tick.raise r).conclude
  | .ok op => onNext State.conclude (exec (decodeWord op) s.tick.advance)

/-- Step, in the order of rule R142: the fault status (R143), the wait (R297), the halt check (R144), then an instruction. -/
def cycle (s : State) : Result :=
  match s.fault with
  | some r => .next (s.finish (.fault r))
  | none =>
    match s.await with
    | some x => .next (s.completeWait x)
    | none => if s.pc = s.progEnd then .next (s.finish .halted) else runInstruction s

end Sys2Proof.Machine
end

