-- ==== Sys2Proof/Machine/Step.lean ====
section
/-! DEFINITION. One Step call (rule R142), and the state in which the very next step runs a given opcode. -/
namespace Sys2Proof.Machine

/-- One Step call with the first listed key vector (rules R140 to R142). -/
def step (s : State) : Host.Outcome State Fault Refusal := cycle s

/-- The state with an opcode, numbered as opcode_table.json numbers it, stored where the next step fetches it. -/
def State.withFetchWord (s : State) (nbits w : Nat) : State := s.readyToFetch.placeOpcode (tableWord nbits w)

end Sys2Proof.Machine
end

