-- ==== Sys2Proof/Machine/HostOps.lean ====
section
/-! DEFINITION. Every operation the host can perform on the core (rule R351): Initialize, LoadProgram, Step(key), and the reads. -/
namespace Sys2Proof.Machine

/-- The error of LoadProgram (rule R341); it is no step fault and does not set the fault status. -/
inductive LoadError where
  | programTooLarge
  deriving DecidableEq, Repr

/-- `Initialize()` (rule R380), at any time between steps.
The parameters and the model's own counter of draws and list of coming key vectors go on as they were. -/
def State.hostInit (s : State) : State :=
  { State.afterInit s.cfg with draws := s.draws, keyInputs := s.keyInputs }

/-- `LoadProgram(bytes)` (rules R382, R383): the bytes and the end marker, and nothing else. -/
def State.hostLoad (s : State) (b : List Byte) : Except LoadError State :=
  if 0x200 + b.length > 4096 then .error .programTooLarge
  else .ok ((s.setMem (Memory.pokeAll s.cfg.glyphs s.mem 0x200 b)).setProgEnd (BitVec.ofNat 16 (0x200 + b.length)))

/-- `Step(key)`: one call that passes the vector `key` (rule R140). -/
def State.hostStep (s : State) (key : Keys) : Result := step { s with keyInputs := key :: s.keyInputs }

/-- Read the framebuffer (rule R351). -/
def State.hostFramebuffer (s : State) : Vector Bool 2048 := s.fb

/-- Read the redraw flag (rule R351). -/
def State.hostRedraw (s : State) : Bool := s.redraw

/-- Clear the redraw flag (rules R46, R351). -/
def State.hostClearRedraw (s : State) : State := s.setRedraw false

/-- Read the sound timer (rules R40, R351). -/
def State.hostSound (s : State) : Byte := s.st

end Sys2Proof.Machine
end

