-- ==== Sys2Proof/Safety.lean ====
section
/-! DEFINITION. The terms statements use: which step executes an instruction, what a raised fault says of the state (R340), the invariant of the machine, which registers an instruction may write (R32), and where a sprite's set bits fall (R262 to R267). -/
namespace Sys2Proof.Machine

/-! ### Which step executes -/

/-- Parts 1 to 3 of rule R142 let the step go on: no fault status, no wait, pc not at the end marker. -/
def State.Active (s : State) : Prop := s.fault = none ∧ s.await = none ∧ s.pc ≠ s.progEnd

/-- An access at this address raises nothing (rule R73). -/
def State.InRange (s : State) (a : Nat) : Prop := s.cfg.memOor = .wrap ∨ a < 4096

/-- Both bytes at pc can be fetched (rule R146). -/
def State.Fetchable (s : State) : Prop := s.InRange (s.pc.toNat + 1)

/-- The opcode at pc, big-endian, each address reduced on its own (rules R71, R72). -/
def State.opcode (s : State) : Word :=
  s.byteAt (s.pc.toNat % 4096) ++ s.byteAt ((s.pc.toNat + 1) % 4096)

/-- One timer after a step that executes (rule R145). -/
def timerAfter (t : Byte) : Byte := BitVec.ofNat 8 (t.toNat - 1)

/-- The state an instruction starts from: the timers decremented and pc past the opcode (rules R145, R147). -/
def State.begun (s : State) : State :=
  { s with st := timerAfter s.st, dt := timerAfter s.dt, pc := BitVec.ofNat 16 ((s.pc.toNat + 2) % 65536) }

/-! ### Safe runs -/

/-- A state with no fault status: its run has not ended abnormally (rule R357). -/
def State.Safe (s : State) : Prop := s.fault = none

/-- What the fault status says of the parameters and the state (rule R340). -/
def State.FaultFits (s : State) : Fault → Prop
  | .stackUnderflow => s.stack = []
  | .addressOutOfRange a => s.cfg.memOor = .fault ∧ 4096 ≤ a
  | .fontRegionWrite a => s.cfg.fontWrites = .fault ∧ a < 0x50
  | .stackOverflow => s.cfg.stackCapacity = .bounded s.stack.length
  | .keyIndexOutOfRange v => s.cfg.keyOor = .fault ∧ 16 ≤ v.toNat

/-- Which instruction raises which fault, and when (rule R340), for a state whose pc is past the opcode. -/
def RaisedBy (i : Instr) (s : State) : Fault → Prop
  | .stackUnderflow => (∃ z, i = .ret z) ∧ s.stack = []
  | .addressOutOfRange a => s.cfg.memOor = .fault ∧ 4096 ≤ a ∧ ∃ k, a = s.index.toNat + k ∧
      ((∃ x y n, i = .drw x y n ∧ k < n.toNat) ∨ (∃ x, i = .ldB x ∧ k < 3) ∨
        (∃ x, i = .storeRegs x ∧ k ≤ x.val) ∨ (∃ x, i = .loadRegs x ∧ k ≤ x.val))
  | .fontRegionWrite a => s.cfg.fontWrites = .fault ∧ a < 0x50 ∧ ∃ k, a = (s.index.toNat + k) % 4096 ∧
      ((∃ x, i = .ldB x ∧ k < 3) ∨ (∃ x, i = .storeRegs x ∧ k ≤ x.val))
  | .stackOverflow => (∃ nnn, i = .call nnn) ∧ s.cfg.stackCapacity = .bounded s.stack.length
  | .keyIndexOutOfRange v => s.cfg.keyOor = .fault ∧ 16 ≤ v.toNat ∧
      ∃ x, (i = .skp x ∨ i = .sknp x) ∧ v = s.reg x

/-- The fault a write at an address raises, if any: the address is out of range (rule R73), or in the glyph region where
that is a fault (rule R75). -/
def State.writeRaises (s : State) (a : Nat) : Option Fault :=
  if s.cfg.memOor = .fault ∧ 4096 ≤ a then some (.addressOutOfRange a)
  else if s.cfg.fontWrites = .fault ∧ a % 4096 < 0x50 then some (.fontRegionWrite (a % 4096))
  else none

/-- What the byte at an address reads as after `v` is written there without a raise: `v`, or the old byte where the
glyph region discards writes (rule R75). -/
def State.written (s : State) (a : Nat) (v : Byte) : Byte :=
  if s.cfg.fontWrites = .discard ∧ a % 4096 < 0x50 then s.byteAt (a % 4096) else v

/-- The invariant of the machine. -/
structure State.Inv (s : State) : Prop where
  /-- Memory is in its canonical form. -/
  memory : Memory.wf s.cfg.glyphs s.mem
  /-- The glyph table is immutable unless writes go through (rule R75). -/
  glyphs : s.cfg.fontWrites ≠ .write → ∀ a, a < 0x50 → s.byteAt a = resetByte s.cfg.glyphs a
  /-- The end marker is an address of at most 0x1000 (rule R50). -/
  marker : s.progEnd.toNat ≤ 0x1000
  /-- The stack keeps to its capacity (rule R42). -/
  stack : ∀ n, s.cfg.stackCapacity = .bounded n → s.stack.length ≤ n
  /-- A waiting core has no fault status (rules R51, R346). -/
  waiting : s.await = none ∨ s.fault = none
  /-- A fault status is one its parameters and state allow (rule R340). -/
  reason : ∀ r, s.fault = some r → s.FaultFits r

/-! ### Rule R32: the registers an instruction may write -/

/-- The "writes" column of rule R32, for the instruction's own step. -/
def writtenRegs : Instr → List Reg
  | .ldImm x _ => [x]
  | .addImm x _ => [x]
  | .ldReg x _ => [x]
  | .orReg x _ => [x]
  | .andReg x _ => [x]
  | .xorReg x _ => [x]
  | .addReg x _ => [VF, x]
  | .subReg x _ => [VF, x]
  | .rnd x _ => [x]
  | .drw _ _ _ => [VF]
  | .ldVxDt x => [x]
  | .loadRegs x => (List.finRange 16).filter (fun k => k ≤ x)
  | .cls _ => []
  | .ret _ => []
  | .nop0 _ _ => []
  | .jp _ => []
  | .call _ => []
  | .seImm _ _ => []
  | .sneImm _ _ => []
  | .seReg _ _ _ => []
  | .nop8n6 _ _ => []
  | .nop8n7 _ _ => []
  | .nop8n8 _ _ => []
  | .nop8n9 _ _ => []
  | .nop8nA _ _ => []
  | .nop8nB _ _ => []
  | .nop8nC _ _ => []
  | .nop8nD _ _ => []
  | .nop8nE _ _ => []
  | .nop8nF _ _ => []
  | .sneReg _ _ _ => []
  | .ldI _ => []
  | .jpV0 _ => []
  | .skp _ => []
  | .sknp _ => []
  | .nopE _ _ => []
  | .ldVxK _ => []
  | .ldDtVx _ => []
  | .ldStVx _ => []
  | .addI _ => []
  | .ldF _ => []
  | .ldB _ => []
  | .storeRegs _ => []
  | .nopF _ _ => []

/-! ### Where a sprite falls -/

/-- Whether a set bit of the `n`-row sprite at I, drawn at origin (ox, oy), falls on the cell (x, y): the cell's column
and row in the sprite are its distances from the origin modulo 256 (rules R263, R266). -/
def State.spriteOn (s : State) (ox oy : Byte) (n : Nat) (x y : Nat) : Bool :=
  let c := (x + 256 - ox.toNat) % 256
  let r := (y + 256 - oy.toNat) % 256
  decide (c < 8 ∧ r < n) && (s.byteAt ((s.index.toNat + r) % 4096)).getLsbD (7 - c)

/-- Some set bit of the sprite falls on a cell that is lit (rule R265). -/
def State.collides (s : State) (ox oy : Byte) (n : Nat) : Prop :=
  ∃ x y, x < 64 ∧ y < 32 ∧ s.spriteOn ox oy n x y = true ∧ s.cell (x + y * 64) = true

/-- Some set bit of the sprite falls on a cell of the grid that is not lit, so that a draw turns that cell on. -/
def State.turnsOn (s : State) (ox oy : Byte) (n : Nat) : Prop :=
  ∃ x y, x < 64 ∧ y < 32 ∧ s.spriteOn ox oy n x y = true ∧ s.cell (x + y * 64) = false

/-- Whether dot `k` of the sprite at I, in the order in which rule R262 visits them (column `k % 8` of row `k / 8`), is set
and falls on the cell (x, y) from the origin (ox, oy) (rules R263, R266). -/
def State.dotOn (s : State) (ox oy : Byte) (k x y : Nat) : Bool :=
  decide ((ox.toNat + k % 8) % 256 = x ∧ (oy.toNat + k / 8) % 256 = y) &&
    (s.byteAt ((s.index.toNat + k / 8) % 4096)).getLsbD (7 - k % 8)

/-- Dot `k` falls on a cell of the grid that is lit (rule R265). -/
def State.dotHits (s : State) (ox oy : Byte) (k : Nat) : Prop :=
  ∃ x y, x < 64 ∧ y < 32 ∧ s.dotOn ox oy k x y = true ∧ s.cell (x + y * 64) = true

/-- Dot `m` is the first of an `n`-row sprite that falls on a lit cell. -/
def State.FirstHit (s : State) (ox oy : Byte) (n m : Nat) : Prop :=
  m < 8 * n ∧ s.dotHits ox oy m ∧ ∀ k, k < m → ¬ s.dotHits ox oy k

/-- The origin of DRW is fixed for the whole draw: it is latched, or no origin register is VF (rule R270). -/
def State.FixedOrigin (s : State) (x y : Reg) : Prop := s.cfg.vfTiming = .snapshot ∨ (x ≠ VF ∧ y ≠ VF)

/-- All `n` sprite rows can be read (rule R73). -/
def State.RowsInRange (s : State) (n : Nat) : Prop := ∀ r, r < n → s.InRange (s.index.toNat + r)

end Sys2Proof.Machine
end

