-- ==== Sys2Proof/Certificates/Slice0/Obligations.lean ====
section
/-! DEFINITION. The statements for the provers, from the numbered rules of the spec. -/
open Sys2Proof Sys2Proof.Machine

/-! ### Encoding -/

/-- Rule R104 on words written out bit by bit from rule R102's formats, at least one of every family and of each
unrecognized row. -/
def Obligations.SampleWordsDecode : Prop :=
  decodeWord 0b0000101011100000 = .cls 0xA ∧ decodeWord 0b0000001111101110 = .ret 3 ∧
  decodeWord 0b0000000100100011 = .nop0 1 0x23 ∧ decodeWord 0b0001001000110100 = .jp 0x234 ∧
  decodeWord 0b0010001100000000 = .call 0x300 ∧ decodeWord 0b0011001100010000 = .seImm 3 0x10 ∧
  decodeWord 0b0100001100010001 = .sneImm 3 0x11 ∧ decodeWord 0b0101000100101111 = .seReg 1 2 0xF ∧
  decodeWord 0b0110101000000101 = .ldImm 0xA 5 ∧ decodeWord 0b0111000100000011 = .addImm 1 3 ∧
  decodeWord 0b1000000100100101 = .subReg 1 2 ∧ decodeWord 0b1000000100101110 = .nop8nE 1 2 ∧
  decodeWord 0b1001000100100000 = .sneReg 1 2 0 ∧ decodeWord 0b1010001011110000 = .ldI 0x2F0 ∧
  decodeWord 0b1011010111111111 = .jpV0 0x5FF ∧ decodeWord 0b1100001100001111 = .rnd 3 0x0F ∧
  decodeWord 0b1101101010110101 = .drw 0xA 0xB 5 ∧ decodeWord 0b1110010010011110 = .skp 4 ∧
  decodeWord 0b1110010010100001 = .sknp 4 ∧ decodeWord 0b1110010010011111 = .nopE 4 0x9F ∧
  decodeWord 0b1111001001010101 = .storeRegs 2 ∧ decodeWord 0b1111000100110000 = .nopF 1 0x30

/-- Decoding the encoding of a well-formed instruction gives it back with every operand, as a word and as the two bytes
memory holds, whatever bytes follow.
That the syntax keeps the bits that are not read is the model's choice (assumption 8). -/
def Obligations.DecodeInvertsEncode : Prop :=
  ∀ (i : Instr) (rest : List Byte), i.wellFormed = true →
    decodeWord (encode i) = i ∧ decode (wordBytes (encode i) ++ rest) = .ok (i, rest)

/-- Every one of the 65536 words decodes to a well-formed instruction whose encoding is that word: no word is refused
(rule R108) and no two words mean the same instruction.
That the syntax keeps the bits that are not read is the model's choice (assumption 8). -/
def Obligations.EncodeInvertsDecode : Prop :=
  ∀ w : Word, (decodeWord w).wellFormed = true ∧ encode (decodeWord w) = w

/-- Rule R106: the row of the opcode table that a word's instruction stands for takes the word, and any other row that fits
the word is a default row, which yields. -/
def Obligations.DecodeFollowsOpcodeTable : Prop :=
  ∀ w : Word, (decodeWord w).row.fits w = true ∧
    ∀ i : Instr, i.row.fits w = true → i.row = (decodeWord w).row ∨ i.row.catchAll = true

/-- Rule R105: the X field of CLS and RET and the N field of SE Vx, Vy and SNE Vx, Vy are not read.
That these bits are not read is the spec's own decision D24 (assumption 25). -/
def Obligations.UnreadBitsHaveNoEffect : Prop :=
  ∀ (x y z z' : Nib) (s : State),
    exec (decodeWord (0x0#4 ++ z ++ 0xE0#8)) s = exec (.cls z') s ∧
    exec (decodeWord (0x0#4 ++ z ++ 0xEE#8)) s = exec (.ret z') s ∧
    exec (decodeWord (0x5#4 ++ x ++ y ++ z)) s = exec (.seReg x.toFin y.toFin z') s ∧
    exec (decodeWord (0x9#4 ++ x ++ y ++ z)) s = exec (.sneReg x.toFin y.toFin z') s

/-! ### The step -/

/-- Parts 4 to 8 of rule R142: a step that passes the fault, wait and halt checks decrements the timers, advances pc,
runs the instruction the two bytes at pc decode to, and ends with the status of rule R149.
The key vector of the call is used up and nothing else is added to what the instruction does.
The order of the parts rests on the spec's own decisions D6 and D10, and the status and key-vector fields are the
model's (assumptions 4, 5, 26, 28). -/
def Obligations.StepRunsTheDecodedInstruction : Prop :=
  ∀ s t : State, s.Active → s.Fetchable → exec (decodeWord s.opcode) s.begun = .next t →
    step s = .next { t with
      status := match t.fault with
        | some r => .fault r
        | none => if t.await = none then .running else .awaitingKey
      keyInputs := t.keyInputs.tail }

/-- Rule R146 where a byte to fetch is out of range: the fault is raised after the timer decrement and before the pc
advance, for the first address of 4096 or more.
It rests on the spec's own decisions D1 and D10, and the status and key-vector fields are the model's (assumptions 4,
5, 14, 26). -/
def Obligations.FetchOutOfRangeRaises : Prop :=
  ∀ s : State, s.Active → s.cfg.memOor = .fault → 0xFFF ≤ s.pc.toNat →
    let a := if s.pc.toNat = 0xFFF then 0x1000 else s.pc.toNat
    step s = .next { s with
      st := BitVec.ofNat 8 (s.st.toNat - 1), dt := BitVec.ofNat 8 (s.dt.toNat - 1),
      fault := some (.addressOutOfRange a), status := .fault (.addressOutOfRange a), keyInputs := s.keyInputs.tail }

/-- Rule R144: a step halts exactly when pc equals the end marker, and then changes nothing of the core.
The status and key-vector fields are the model's (assumptions 4, 5). -/
def Obligations.HaltedStepChangesNothing : Prop :=
  ∀ s : State, s.fault = none → s.await = none →
    (s.pc = s.progEnd → step s = .next { s with status := .halted, keyInputs := s.keyInputs.tail }) ∧
    (s.pc ≠ s.progEnd → ∃ t, step s = .next t ∧ t.status ≠ .halted)

/-- Rule R143: a step taken with the fault status set returns the same fault and changes nothing of the core.
It rests on the spec's own decision D10, and the status and key-vector fields are the model's (assumptions 4, 5, 26). -/
def Obligations.FaultedStepChangesNothing : Prop :=
  ∀ (s : State) (r : Fault), s.fault = some r →
    step s = .next { s with status := .fault r, keyInputs := s.keyInputs.tail }

/-- Rules R297 and R298: a waiting step with no key pressed changes nothing; otherwise the least pressed key goes to the
register waited for, and the wait ends.
It rests on the spec's own decision D6, and the status and key-vector fields are the model's (assumptions 4, 5, 19). -/
def Obligations.WaitingStepTakesLeastKey : Prop :=
  ∀ (s : State) (x : Reg), s.fault = none → s.await = some x →
    ((∀ j : Reg, s.keys[j.val] = false) →
      step s = .next { s with status := .awaitingKey, keyInputs := s.keyInputs.tail }) ∧
    (∀ k : Reg, s.keys[k.val] = true → (∀ j : Reg, j < k → s.keys[j.val] = false) →
      step s = .next { s with
        regs := s.regs.set x.val (BitVec.ofNat 8 k.val), await := none, status := .running,
        keyInputs := s.keyInputs.tail })

/-- Rules R53 and R345: a core that has halted or faulted stays so for every number of further steps.
It rests on the spec's own decision D10, and the status and key-vector fields are the model's (assumptions 4, 5, 26). -/
def Obligations.StoppedCoreStaysStopped : Prop :=
  ∀ (n : Nat) (s : State),
    (∀ r, s.fault = some r → Host.Core.run core (n + 1) s =
      (Host.Outcome.next { s with status := .fault r, keyInputs := s.keyInputs.drop (n + 1) } : Result)) ∧
    (s.fault = none → s.await = none → s.pc = s.progEnd → Host.Core.run core (n + 1) s =
      (Host.Outcome.next { s with status := .halted, keyInputs := s.keyInputs.drop (n + 1) } : Result))

/-- Rules R152 and R297 over a run: a waiting core answers AwaitingKey, unchanged, for as long as no key is pressed, and
the first call with a key pressed completes the wait.
It rests on the spec's own decision D6, and the status and key-vector fields are the model's (assumptions 4, 5, 19). -/
def Obligations.WaitEndsAtFirstPress : Prop :=
  ∀ (quiet : List Keys) (press : Keys) (rest : List Keys) (k x : Reg) (s : State),
    s.fault = none → s.await = some x → s.keyInputs = quiet ++ press :: rest →
    (∀ v ∈ quiet, ∀ j : Reg, v[j.val] = false) →
    press[k.val] = true → (∀ j : Reg, j < k → press[j.val] = false) →
    (∀ m, m < quiet.length → Host.Core.run core (m + 1) s =
      (Host.Outcome.next { s with status := .awaitingKey, keyInputs := s.keyInputs.drop (m + 1) } : Result)) ∧
    Host.Core.run core (quiet.length + 1) s =
      (Host.Outcome.next { s with
        regs := s.regs.set x.val (BitVec.ofNat 8 k.val), await := none, status := .running,
        keyInputs := rest } : Result)

/-- No instruction and no step is ever refused, and none stops the machine without a next state (rules R107, R108, R343).
That a raise is a next state is the model's form (assumption 1). -/
def Obligations.EveryInstructionAndStepAnswers : Prop :=
  (∀ (i : Instr) (s : State), ∃ t, exec i s = .next t) ∧ ∀ s : State, ∃ t, step s = .next t

/-- Rule R145 for every step: one that is faulted, waiting or halted leaves the timers; any other decrements both, floor
0, and only FX15 and FX18 then write one.
Which steps count down is the spec's own decision D6 (assumption 28). -/
def Obligations.StepDecrementsTimersOnce : Prop :=
  ∀ s t : State, step s = .next t →
    (¬ s.Active → t.dt = s.dt ∧ t.st = s.st) ∧
    (s.Active → (∀ x, s.Fetchable → decodeWord s.opcode ≠ .ldDtVx x) → t.dt.toNat = s.dt.toNat - 1) ∧
    (s.Active → (∀ x, s.Fetchable → decodeWord s.opcode ≠ .ldStVx x) → t.st.toNat = s.st.toNat - 1)

/-- Rules R350 and R388 over any run: after `k` executing steps with no FX15 or FX18, a timer that held n holds n - k,
floor 0.
Which steps count down is the spec's own decision D6 (assumption 28). -/
def Obligations.TimersCountDownToZero : Prop :=
  ∀ (run : Nat → State) (k : Nat),
    (∀ j, j < k → (run j).Active ∧ step (run j) = .next (run (j + 1)) ∧
      ∀ x, decodeWord (run j).opcode ≠ .ldDtVx x ∧ decodeWord (run j).opcode ≠ .ldStVx x) →
    (run k).dt.toNat = (run 0).dt.toNat - k ∧ (run k).st.toNat = (run 0).st.toNat - k

/-! ### The invariant, and the operations of the host -/

/-- Every step keeps the invariant: memory stays in its canonical form, the glyph table stays immutable unless writes go
through, the end marker stays an address, the stack keeps to its capacity, a waiting core is not faulted, and a fault
status is one that its parameters and state allow.
The canonical form is the model's; the other clauses rest on the spec's own decisions D5, D6, D8, D10 and D15
(assumptions 6, 11, 13, 16, 18, 19, 26). -/
def Obligations.InvariantKeptByEveryStep : Prop :=
  ∀ s t : State, s.Inv → step s = .next t → t.Inv

/-- The invariant holds after Initialize, for every value of the parameters, and at reset.
It rests on the spec's own decision D15 (assumption 13). -/
def Obligations.InvariantHoldsAfterInitialize : Prop :=
  (∀ p : Config.Params, (State.afterInit p).Inv) ∧ State.reset.Inv

/-- The host's operations keep the invariant (rule R351).
It rests on the spec's own decisions D15, D21 and D26 (assumptions 13, 30, 31). -/
def Obligations.HostOperationsKeepInvariant : Prop :=
  ∀ s : State, s.Inv → s.hostInit.Inv ∧ s.hostClearRedraw.Inv ∧
    (∀ b t, s.hostLoad b = .ok t → t.Inv) ∧ (∀ key t, s.hostStep key = .next t → t.Inv)

/-- Rule R351: Step passes its key vector to that one call; clearing the redraw flag sets it to false and changes nothing
else; the host reads the framebuffer, the redraw flag and ST as they are.
The host's clearing and its read of ST are the spec's own decisions D21 and D17, and the list of key vectors is the
model's (assumptions 5, 31). -/
def Obligations.HostStepsClearsAndReads : Prop :=
  ∀ (s : State) (key : Keys),
    s.hostStep key = step { s with keyInputs := key :: s.keyInputs } ∧
    State.keys { s with keyInputs := key :: s.keyInputs } = key ∧
    s.hostClearRedraw = { s with redraw := false } ∧
    s.hostFramebuffer = s.fb ∧ s.hostRedraw = s.redraw ∧ s.hostSound = s.st

/-- Rules R54 and R380: every piece of state after Initialize, whatever the state before.
The values of I, the timers, the stack, redraw, end, the wait and the fault are the spec's own decision D15; that the
parameters stay is the model's (assumptions 10, 13). -/
def Obligations.InitializeZeroesAllState : Prop :=
  ∀ s : State, let t := s.hostInit
    (∀ r, t.reg r = 0) ∧ t.index = 0 ∧ t.pc = 0x200 ∧ t.stack = [] ∧ t.dt = 0 ∧ t.st = 0 ∧
    (∀ a, (h : a < 80) → t.byteAt a = s.cfg.glyphs[a]) ∧ (∀ a, 80 ≤ a → t.byteAt a = 0) ∧
    (∀ k, (h : k < 2048) → t.fb[k] = false) ∧ t.redraw = false ∧ t.progEnd = 0 ∧ t.await = none ∧ t.fault = none ∧
    t.cfg = s.cfg

/-- Rules R341, R382 and R383: LoadProgram copies the bytes from 0x200 on and records the end marker, or refuses and
changes nothing.
That nothing else changes is the spec's own decision D26 (assumption 30). -/
def Obligations.LoadProgramCopiesAndMarksEnd : Prop :=
  ∀ (s : State) (b : List Byte),
    (0x200 + b.length ≤ 4096 → ∃ t, s.hostLoad b = .ok t ∧
      t = { s with mem := t.mem, progEnd := t.progEnd } ∧ t.progEnd.toNat = 0x200 + b.length ∧
      (∀ j, (h : j < b.length) → t.byteAt (0x200 + j) = b[j]) ∧
      (∀ a, a < 0x200 ∨ 0x200 + b.length ≤ a → t.byteAt a = s.byteAt a)) ∧
    (4096 < 0x200 + b.length → s.hostLoad b = .error .programTooLarge)

/-- The next step after an opcode is placed for it runs exactly that opcode, from every state: it answers what the decoded
instruction answers on the placed state's start, with the status and the used-up key vector of every step.
Registers, stack, timers and screen are left as they were by the placing, and so is every byte where it is not placed.
The operation is the model's, and so are the status and key-vector fields (assumptions 4, 5, 9). -/
def Obligations.PlacedOpcodeRunsNext : Prop :=
  ∀ (s : State) (w : Nat), let u := s.withFetchWord 16 w
    (∃ t, exec (decodeWord (BitVec.ofNat 16 w)) u.begun = .next t ∧
      step u = .next { t with
        status := match t.fault with
          | some r => .fault r
          | none => if t.await = none then .running else .awaitingKey
        keyInputs := t.keyInputs.tail }) ∧
    u.Active ∧ u.Fetchable ∧ decodeTableWord 16 w = some (decodeWord u.opcode) ∧
    u.opcode = BitVec.ofNat 16 w ∧
    u = { s with mem := u.mem, pc := u.pc, progEnd := u.progEnd, await := none, fault := none } ∧
    (∀ a, a ≠ u.pc.toNat % 4096 → a ≠ (u.pc.toNat + 1) % 4096 → u.byteAt a = s.byteAt a) ∧
    (s.Fetchable → u.pc = s.pc) ∧ (u.pc ≠ s.progEnd → u.progEnd = s.progEnd)

/-- Two memories in canonical form that read the same at every address are the same list.
The form is the model's (assumption 6). -/
def Obligations.CanonicalMemoryIsUnique : Prop :=
  ∀ (g : GlyphTable) (m m' : Memory), Memory.wf g m → Memory.wf g m' →
    (∀ a, Memory.peek g m a = Memory.peek g m' a) → m = m'

/-! ### Control flow -/

/-- Rule R170: RET pops the top of the stack into pc, or raises StackUnderflow.
That bits 11:8 are not read is the spec's own decision D24, and the form of the raise D10 (assumptions 1, 25, 26). -/
def Obligations.RetPopsOrUnderflows : Prop :=
  ∀ (z : Nib) (s : State), decodeWord (0x0#4 ++ z ++ 0xEE#8) = .ret z ∧
    (∀ a rest, s.stack = a :: rest → exec (.ret z) s = .next { s with pc := a, stack := rest }) ∧
    (s.stack = [] → exec (.ret z) s = .next { s with fault := some .stackUnderflow })

/-- Rules R171 and R177: the absolute jumps. -/
def Obligations.JumpsSetPc : Prop :=
  ∀ (nnn : Addr12) (s : State),
    decodeWord (0x1#4 ++ nnn) = .jp nnn ∧ decodeWord (0xB#4 ++ nnn) = .jpV0 nnn ∧
    exec (.jp nnn) s = .next { s with pc := BitVec.ofNat 16 nnn.toNat } ∧
    exec (.jpV0 nnn) s = .next { s with pc := BitVec.ofNat 16 (nnn.toNat + (s.reg 0).toNat) }

/-- Rule R172: CALL pushes pc, which is the address after the call, and jumps; a stack at its capacity raises
StackOverflow.
The capacity is a parameter by the spec's own decision D8 (assumption 18). -/
def Obligations.CallPushesOrOverflows : Prop :=
  ∀ (nnn : Addr12) (s : State), decodeWord (0x2#4 ++ nnn) = .call nnn ∧
    (s.cfg.stackCapacity ≠ .bounded s.stack.length →
      exec (.call nnn) s = .next { s with pc := BitVec.ofNat 16 nnn.toNat, stack := s.pc :: s.stack }) ∧
    (s.cfg.stackCapacity = .bounded s.stack.length →
      exec (.call nnn) s = .next { s with fault := some .stackOverflow })

/-- The round trip of rule R172: a RET that finds the stack as a CALL left it restores the pc and the stack from before
the CALL, at any depth.
The capacity is a parameter by the spec's own decision D8 (assumption 18). -/
def Obligations.CallThenReturnRestoresPc : Prop :=
  ∀ (nnn : Addr12) (z : Nib) (s : State), s.cfg.stackCapacity ≠ .bounded s.stack.length →
    ∃ t, exec (.call nnn) s = .next t ∧
      ∀ u : State, u.stack = t.stack → exec (.ret z) u = .next { u with pc := s.pc, stack := s.stack }

/-- Rules R173 to R176 and R178: a skip adds 2 to pc modulo 65536 when its condition holds and does nothing otherwise.
That N is not read is the spec's own decision D24 (assumption 25). -/
def Obligations.SkipsTestAndAddTwo : Prop :=
  ∀ (x y : Reg) (nn : Byte) (z : Nib) (s : State),
    let skipped : State := { s with pc := BitVec.ofNat 16 ((s.pc.toNat + 2) % 65536) }
    decodeWord (0x3#4 ++ regBits x ++ nn) = .seImm x nn ∧
    decodeWord (0x4#4 ++ regBits x ++ nn) = .sneImm x nn ∧
    decodeWord (0x5#4 ++ regBits x ++ regBits y ++ z) = .seReg x y z ∧
    decodeWord (0x9#4 ++ regBits x ++ regBits y ++ z) = .sneReg x y z ∧
    exec (.seImm x nn) s = .next (if s.reg x = nn then skipped else s) ∧
    exec (.sneImm x nn) s = .next (if s.reg x ≠ nn then skipped else s) ∧
    exec (.seReg x y z) s = .next (if s.reg x = s.reg y then skipped else s) ∧
    exec (.sneReg x y z) s = .next (if s.reg x ≠ s.reg y then skipped else s)

/-! ### The ALU -/

/-- Rules R200, R201 and R202: the loads and ADD Vx, NN, which touches no flag. -/
def Obligations.LoadsAndAddImmediate : Prop :=
  ∀ (x y : Reg) (nn : Byte) (s : State),
    decodeWord (0x6#4 ++ regBits x ++ nn) = .ldImm x nn ∧
    decodeWord (0x7#4 ++ regBits x ++ nn) = .addImm x nn ∧
    decodeWord (0x8#4 ++ regBits x ++ regBits y ++ 0x0#4) = .ldReg x y ∧
    exec (.ldImm x nn) s = .next { s with regs := s.regs.set x.val nn } ∧
    exec (.addImm x nn) s =
      .next { s with regs := s.regs.set x.val (BitVec.ofNat 8 (((s.reg x).toNat + nn.toNat) % 256)) } ∧
    exec (.ldReg x y) s = .next { s with regs := s.regs.set x.val (s.reg y) }

/-- Rules R203, R204 and R205: bit `b` of the result is the OR, AND or XOR of the operands' bits, and nothing but Vx
changes, VF included. -/
def Obligations.LogicIsBitwise : Prop :=
  ∀ (x y : Reg) (s : State),
    decodeWord (0x8#4 ++ regBits x ++ regBits y ++ 0x1#4) = .orReg x y ∧
    decodeWord (0x8#4 ++ regBits x ++ regBits y ++ 0x2#4) = .andReg x y ∧
    decodeWord (0x8#4 ++ regBits x ++ regBits y ++ 0x3#4) = .xorReg x y ∧
    (∃ r : Byte, exec (.orReg x y) s = .next { s with regs := s.regs.set x.val r } ∧
      ∀ b, r.getLsbD b = ((s.reg x).getLsbD b || (s.reg y).getLsbD b)) ∧
    (∃ r : Byte, exec (.andReg x y) s = .next { s with regs := s.regs.set x.val r } ∧
      ∀ b, r.getLsbD b = ((s.reg x).getLsbD b && (s.reg y).getLsbD b)) ∧
    (∃ r : Byte, exec (.xorReg x y) s = .next { s with regs := s.regs.set x.val r } ∧
      ∀ b, r.getLsbD b = ((s.reg x).getLsbD b != (s.reg y).getLsbD b))

/-- Rules R206 and R210: ADD Vx, Vy writes the carry to VF, then the sum modulo 256 to Vx, under each operand timing.
The two timings are the spec's own decision D2 (assumption 15). -/
def Obligations.AddWritesCarryThenSum : Prop :=
  ∀ (x y : Reg) (s : State),
    let carryOf : Byte → Byte → Byte := fun a b => if a.toNat + b.toNat > 255 then 1 else 0
    let sumOf : Byte → Byte → Byte := fun a b => BitVec.ofNat 8 ((a.toNat + b.toNat) % 256)
    let withFlag : State := { s with regs := s.regs.set 15 (carryOf (s.reg x) (s.reg y)) }
    decodeWord (0x8#4 ++ regBits x ++ regBits y ++ 0x4#4) = .addReg x y ∧
    (s.cfg.vfTiming = .snapshot → exec (.addReg x y) s =
      .next { withFlag with regs := withFlag.regs.set x.val (sumOf (s.reg x) (s.reg y)) }) ∧
    (s.cfg.vfTiming = .sequential → exec (.addReg x y) s =
      .next { withFlag with regs := withFlag.regs.set x.val (sumOf (withFlag.reg x) (withFlag.reg y)) })

/-- Rules R207 and R210: SUB Vx, Vy writes the no-borrow flag to VF, then the difference modulo 256 to Vx, under each
operand timing.
The two timings are the spec's own decision D2 (assumption 15). -/
def Obligations.SubWritesNoBorrowThenDifference : Prop :=
  ∀ (x y : Reg) (s : State),
    let noBorrowOf : Byte → Byte → Byte := fun a b => if a.toNat < b.toNat then 0 else 1
    let diffOf : Byte → Byte → Byte := fun a b => BitVec.ofNat 8 ((a.toNat + 256 - b.toNat) % 256)
    let withFlag : State := { s with regs := s.regs.set 15 (noBorrowOf (s.reg x) (s.reg y)) }
    decodeWord (0x8#4 ++ regBits x ++ regBits y ++ 0x5#4) = .subReg x y ∧
    (s.cfg.vfTiming = .snapshot → exec (.subReg x y) s =
      .next { withFlag with regs := withFlag.regs.set x.val (diffOf (s.reg x) (s.reg y)) }) ∧
    (s.cfg.vfTiming = .sequential → exec (.subReg x y) s =
      .next { withFlag with regs := withFlag.regs.set x.val (diffOf (withFlag.reg x) (withFlag.reg y)) })

/-- Rules R210 and R270: when neither X nor Y is VF, the two operand timings give the same registers, cells and fault.
The two timings are the spec's own decision D2 (assumption 15). -/
def Obligations.TimingMattersOnlyForVF : Prop :=
  ∀ (x y : Reg) (n : Nib) (s t u : State) (i : Instr), x ≠ VF → y ≠ VF →
    i = .addReg x y ∨ i = .subReg x y ∨ i = .drw x y n →
    exec i { s with cfg := { s.cfg with vfTiming := .snapshot } } = .next t →
    exec i { s with cfg := { s.cfg with vfTiming := .sequential } } = .next u →
    t.regs = u.regs ∧ t.fb = u.fb ∧ t.redraw = u.redraw ∧ t.fault = u.fault

/-- Rule R208: RND writes a drawn byte masked by NN, whatever byte is drawn; the result has no bit outside the mask.
The free draw is the spec's own decision D14, and the counter is the model's (assumption 3). -/
def Obligations.RndIsAMaskedDraw : Prop :=
  ∀ (x : Reg) (nn : Byte) (s : State),
    decodeWord (0xC#4 ++ regBits x ++ nn) = .rnd x nn ∧
    ∃ r : Byte, r = Config.randomByte s.draws ∧
      exec (.rnd x nn) s = .next { s with regs := s.regs.set x.val (r &&& nn), draws := s.draws + 1 } ∧
      (r &&& nn) &&& ~~~nn = 0

/-! ### The index register and memory -/

/-- Rules R230 and R231: I is set to NNN, or has Vx added modulo 65536; VF is not touched. -/
def Obligations.IndexLoadAndAdd : Prop :=
  ∀ (nnn : Addr12) (x : Reg) (s : State),
    decodeWord (0xA#4 ++ nnn) = .ldI nnn ∧ decodeWord (0xF#4 ++ regBits x ++ 0x1E#8) = .addI x ∧
    exec (.ldI nnn) s = .next { s with index := BitVec.ofNat 16 nnn.toNat } ∧
    exec (.addI x) s = .next { s with index := BitVec.ofNat 16 ((s.index.toNat + (s.reg x).toNat) % 65536) }

/-- Rules R235 and R236: I is set to five times the hex digit whose ASCII character the whole byte Vx is, and to 0 for
any other byte.
That the whole byte is read is the spec's own decision D3 (assumption 20). -/
def Obligations.FontLookupReadsAscii : Prop :=
  ∀ (x : Reg) (s : State), decodeWord (0xF#4 ++ regBits x ++ 0x29#8) = .ldF x ∧
    ∃ d : Nat, exec (.ldF x) s = .next { s with index := BitVec.ofNat 16 (d * 5) } ∧ d < 16 ∧
      (∀ e, e < 10 → (s.reg x).toNat = 0x30 + e → d = e) ∧
      (∀ e, e < 6 → (s.reg x).toNat = 0x61 + e ∨ (s.reg x).toNat = 0x41 + e → d = 10 + e) ∧
      (¬ (0x30 ≤ (s.reg x).toNat ∧ (s.reg x).toNat ≤ 0x39) → ¬ (0x61 ≤ (s.reg x).toNat ∧ (s.reg x).toNat ≤ 0x66) →
        ¬ (0x41 ≤ (s.reg x).toNat ∧ (s.reg x).toNat ≤ 0x46) → d = 0)

/-- Rule R237: LD B stores the three ASCII decimal digits of Vx at I, I + 1 and I + 2 and nothing else; at the first byte
whose write raises, the digits before it are stored and the fault is taken.
The leading zeros are the spec's own decision D13, and the policies D1, D5, D10 and D12 (assumptions 14, 16, 22, 23,
26). -/
def Obligations.DecimalDigitsAreStored : Prop :=
  ∀ (x : Reg) (s : State),
    let v := (s.reg x).toNat
    let digit : Nat → Byte := fun k =>
      BitVec.ofNat 8 (0x30 + (if k = 0 then v / 100 else if k = 1 then v / 10 % 10 else v % 10))
    let base := s.index.toNat
    let storedUpTo : State → Nat → Prop := fun t j =>
      (∀ k, k < j → t.byteAt ((base + k) % 4096) = s.written (base + k) (digit k)) ∧
      (∀ a, (∀ k, k < j → a ≠ (base + k) % 4096) → t.byteAt a = s.byteAt a)
    decodeWord (0xF#4 ++ regBits x ++ 0x33#8) = .ldB x ∧
    ((∀ k, k < 3 → s.writeRaises (base + k) = none) →
      ∃ t, exec (.ldB x) s = .next t ∧ t = { s with mem := t.mem } ∧ storedUpTo t 3) ∧
    (∀ j r, j < 3 → (∀ k, k < j → s.writeRaises (base + k) = none) → s.writeRaises (base + j) = some r →
      ∃ t, exec (.ldB x) s = .next t ∧ t = { s with mem := t.mem, fault := some r } ∧ storedUpTo t j)

/-- Rules R233 and R238: LD [I], Vx stores V0 to Vx at I, I + 1, … and nothing else, leaving I; at the first byte whose
write raises, the registers before it are stored and the fault is taken.
The policies and the unchanged I are the spec's own decisions D1, D5, D10 and D12 (assumptions 14, 16, 23, 26). -/
def Obligations.RegistersAreStored : Prop :=
  ∀ (x : Reg) (s : State),
    let base := s.index.toNat
    let storedUpTo : State → Nat → Prop := fun t j =>
      (∀ k : Reg, k.val < j → t.byteAt ((base + k.val) % 4096) = s.written (base + k.val) (s.reg k)) ∧
      (∀ a, (∀ k, k < j → a ≠ (base + k) % 4096) → t.byteAt a = s.byteAt a)
    decodeWord (0xF#4 ++ regBits x ++ 0x55#8) = .storeRegs x ∧
    ((∀ k, k ≤ x.val → s.writeRaises (base + k) = none) →
      ∃ t, exec (.storeRegs x) s = .next t ∧ t = { s with mem := t.mem } ∧ storedUpTo t (x.val + 1)) ∧
    (∀ j r, j ≤ x.val → (∀ k, k < j → s.writeRaises (base + k) = none) → s.writeRaises (base + j) = some r →
      ∃ t, exec (.storeRegs x) s = .next t ∧ t = { s with mem := t.mem, fault := some r } ∧ storedUpTo t j)

/-- Rules R234 and R238: LD Vx, [I] loads V0 to Vx from I, I + 1, … and changes nothing else, leaving I; at the first
address out of range, the registers before it are loaded and the fault is taken.
The policies and the unchanged I are the spec's own decisions D1, D10 and D12 (assumptions 14, 23, 26). -/
def Obligations.RegistersAreLoaded : Prop :=
  ∀ (x : Reg) (s : State),
    let base := s.index.toNat
    let loadedUpTo : State → Nat → Prop := fun t j =>
      ∀ k : Reg, t.reg k = if k.val < j then s.byteAt ((base + k.val) % 4096) else s.reg k
    decodeWord (0xF#4 ++ regBits x ++ 0x65#8) = .loadRegs x ∧
    (s.InRange (base + x.val) →
      ∃ t, exec (.loadRegs x) s = .next t ∧ t = { s with regs := t.regs } ∧ loadedUpTo t (x.val + 1)) ∧
    (∀ j, j ≤ x.val → (∀ k, k < j → s.InRange (base + k)) → ¬ s.InRange (base + j) →
      ∃ t, exec (.loadRegs x) s = .next t ∧
        t = { s with regs := t.regs, fault := some (.addressOutOfRange (base + j)) } ∧ loadedUpTo t j)

/-! ### The display -/

/-- Rule R260: CLS clears every cell and sets the redraw flag.
That bits 11:8 are not read is the spec's own decision D24, and that redraw is only set D21 (assumptions 25, 31). -/
def Obligations.ClsClearsTheFramebuffer : Prop :=
  ∀ (z : Nib) (s : State), decodeWord (0x0#4 ++ z ++ 0xE0#8) = .cls z ∧
    ∃ t, exec (.cls z) s = .next t ∧ t = { s with fb := t.fb, redraw := true } ∧
      ∀ k, (h : k < 2048) → t.fb[k] = false

/-- Rules R261 to R267: with all rows readable and the origin fixed, DRW flips exactly the cells on which a set sprite bit
falls, clips every other, leaves VF = 1 exactly when it met a lit cell, and sets the redraw flag.
It changes nothing else.
The 8-bit coordinates are the spec's own decision D9, and the operand timing D2 (assumptions 15, 24). -/
def Obligations.DrawFlipsExactlyTheSprite : Prop :=
  ∀ (x y : Reg) (n : Nib) (s : State), s.FixedOrigin x y → s.RowsInRange n.toNat →
    let on : Nat → Nat → Bool := s.spriteOn (s.reg x) (s.reg y) n.toNat
    decodeWord (0xD#4 ++ regBits x ++ regBits y ++ n) = .drw x y n ∧
    ∃ t, exec (.drw x y n) s = .next t ∧
      t = { s with regs := s.regs.set 15 (t.reg VF), fb := t.fb, redraw := true } ∧
      (∀ px py, px < 64 → py < 32 → t.cell (px + py * 64) = (s.cell (px + py * 64) != on px py)) ∧
      (s.collides (s.reg x) (s.reg y) n.toNat → t.reg VF = 1) ∧
      (¬ s.collides (s.reg x) (s.reg y) n.toNat → t.reg VF = 0)

/-- Rule R270 under `sequential`, for an origin held in VF: it reads as 0 as long as no lit cell has been met, so a draw
that meets none falls where an origin of 0 puts it.
Every form of DRW with its rows readable completes, whatever it meets.
The two timings are the spec's own decision D2, and the 8-bit coordinates D9 (assumptions 15, 24). -/
def Obligations.SequentialOriginInVFReadsZero : Prop :=
  ∀ (x y : Reg) (n : Nib) (s : State), s.cfg.vfTiming = .sequential → s.RowsInRange n.toNat →
    let ox := if x = VF then 0 else s.reg x
    let oy := if y = VF then 0 else s.reg y
    ∃ t, exec (.drw x y n) s = .next t ∧
      t = { s with regs := s.regs.set 15 (t.reg VF), fb := t.fb, redraw := true } ∧
      (t.reg VF = 0 ∨ t.reg VF = 1) ∧
      (s.collides ox oy n.toNat ↔ t.reg VF = 1) ∧
      (t.reg VF = 0 → ∀ px py, px < 64 → py < 32 →
        t.cell (px + py * 64) = (s.cell (px + py * 64) != s.spriteOn ox oy n.toNat px py))

/-- Rule R270 under `sequential`, for a draw that meets a lit cell: the dots up to and with the first that meets one fall
where an origin that counts VF as 0 puts them, every later dot where an origin that counts VF as 1 puts it, and exactly
the cells under a set dot are flipped.
A draw that collides has such a first dot, and one that does not is Obligations.SequentialOriginInVFReadsZero.
The two timings are the spec's own decision D2, and the 8-bit coordinates D9 (assumptions 15, 24). -/
def Obligations.SequentialOriginInVFBecomesOneAtFirstHit : Prop :=
  ∀ (x y : Reg) (n : Nib) (s : State), s.cfg.vfTiming = .sequential → s.RowsInRange n.toNat →
    let originWith : Byte → Reg → Byte := fun vf r => if r = VF then vf else s.reg r
    (s.collides (originWith 0 x) (originWith 0 y) n.toNat → ∃ m, s.FirstHit (originWith 0 x) (originWith 0 y) n.toNat m) ∧
    ∀ m, s.FirstHit (originWith 0 x) (originWith 0 y) n.toNat m →
      let flipped : Nat → Nat → Prop := fun px py =>
        (∃ k, k ≤ m ∧ s.dotOn (originWith 0 x) (originWith 0 y) k px py = true) ∨
        (∃ k, m < k ∧ k < 8 * n.toNat ∧ s.dotOn (originWith 1 x) (originWith 1 y) k px py = true)
      ∃ t, exec (.drw x y n) s = .next t ∧
        t = { s with regs := s.regs.set 15 1, fb := t.fb, redraw := true } ∧
        ∀ px py, px < 64 → py < 32 →
          (flipped px py → t.cell (px + py * 64) = !s.cell (px + py * 64)) ∧
          (¬ flipped px py → t.cell (px + py * 64) = s.cell (px + py * 64))

/-- Rules R261 and R346: at the first sprite row that cannot be read, DRW has done what a draw of the rows before it does,
except that redraw is not set, and the fault is taken.
The policy is the spec's own decision D1, and the form of the raise D10 (assumptions 14, 26). -/
def Obligations.DrawRaisesAtFirstUnreadableRow : Prop :=
  ∀ (x y : Reg) (n j : Nib) (s : State), j.toNat < n.toNat → s.RowsInRange j.toNat →
    ¬ s.InRange (s.index.toNat + j.toNat) →
    ∃ u, exec (.drw x y j) s = .next u ∧
      exec (.drw x y n) s =
        .next { u with redraw := s.redraw, fault := some (.addressOutOfRange (s.index.toNat + j.toNat)) }

/-- Two draws of the same sprite at the same origin, with the framebuffer left alone between them, restore every cell
(rule R268).
After the second, VF = 1 exactly when the first had turned some cell on: rule R268 says so of every visible set bit, which
the algorithm of R262 and R265 contradicts where the first draw turned cells off only (assumption 12).
The fixed origin rests on the spec's own decision D2, and the 8-bit coordinates on D9 (assumptions 15, 24). -/
def Obligations.DrawingTwiceRestoresTheFramebuffer : Prop :=
  ∀ (x y : Reg) (n : Nib) (s t t' u : State), s.FixedOrigin x y →
    exec (.drw x y n) s = .next t → exec (.drw x y n) t' = .next u →
    t'.cfg = s.cfg → t'.index = s.index → t'.reg x = s.reg x → t'.reg y = s.reg y → t'.fb = t.fb →
    (∀ r, r < n.toNat → t'.byteAt ((s.index.toNat + r) % 4096) = s.byteAt ((s.index.toNat + r) % 4096)) →
    u.fb = s.fb ∧
    (s.RowsInRange n.toNat →
      (s.turnsOn (s.reg x) (s.reg y) n.toNat → u.reg VF = 1) ∧
      (¬ s.turnsOn (s.reg x) (s.reg y) n.toNat → u.reg VF = 0))

/-! ### Timers, keys and no-ops -/

/-- Rules R290, R291 and R292: the timer transfers. -/
def Obligations.TimerTransfers : Prop :=
  ∀ (x : Reg) (s : State),
    decodeWord (0xF#4 ++ regBits x ++ 0x07#8) = .ldVxDt x ∧
    decodeWord (0xF#4 ++ regBits x ++ 0x15#8) = .ldDtVx x ∧
    decodeWord (0xF#4 ++ regBits x ++ 0x18#8) = .ldStVx x ∧
    exec (.ldVxDt x) s = .next { s with regs := s.regs.set x.val s.dt } ∧
    exec (.ldDtVx x) s = .next { s with dt := s.reg x } ∧
    exec (.ldStVx x) s = .next { s with st := s.reg x }

/-- Rules R293, R294 and R295: the key skips, in the key vector of the current call; a key index of 16 or more is a key
that is not pressed, or raises KeyIndexOutOfRange.
The policy is the spec's own decision D7, and that the vector stands in State is the model's (assumptions 5, 17). -/
def Obligations.KeySkipsTestTheCurrentVector : Prop :=
  ∀ (x : Reg) (s : State),
    let skipped : State := { s with pc := BitVec.ofNat 16 ((s.pc.toNat + 2) % 65536) }
    decodeWord (0xE#4 ++ regBits x ++ 0x9E#8) = .skp x ∧
    decodeWord (0xE#4 ++ regBits x ++ 0xA1#8) = .sknp x ∧
    (∀ k : Reg, (s.reg x).toNat = k.val →
      exec (.skp x) s = .next (if s.keys[k.val] = true then skipped else s) ∧
      exec (.sknp x) s = .next (if s.keys[k.val] = true then s else skipped)) ∧
    (16 ≤ (s.reg x).toNat → s.cfg.keyOor = .notPressed →
      exec (.skp x) s = .next s ∧ exec (.sknp x) s = .next skipped) ∧
    (16 ≤ (s.reg x).toNat → s.cfg.keyOor = .fault →
      exec (.skp x) s = .next { s with fault := some (.keyIndexOutOfRange (s.reg x)) } ∧
      exec (.sknp x) s = .next { s with fault := some (.keyIndexOutOfRange (s.reg x)) })

/-- Rule R296: LD Vx, K sets the wait and nothing else, whatever keys are pressed in its own call; the step that executes
it returns AwaitingKey.
It rests on the spec's own decision D6, and the status and key-vector fields are the model's (assumptions 4, 5, 19). -/
def Obligations.KeyWaitIsIssued : Prop :=
  ∀ (x : Reg) (s : State), decodeWord (0xF#4 ++ regBits x ++ 0x0A#8) = .ldVxK x ∧
    exec (.ldVxK x) s = .next { s with await := some x } ∧
    (s.Active → s.Fetchable → s.opcode = 0xF#4 ++ regBits x ++ 0x0A#8 →
      step s = .next { s.begun with await := some x, status := .awaitingKey, keyInputs := s.keyInputs.tail })

/-- Rules R320 to R324: the unrecognized encodings change nothing. -/
def Obligations.UnrecognizedEncodingsDoNothing : Prop :=
  ∀ (x y : Reg) (z : Nib) (f : Byte) (s : State),
    (f ≠ 0xE0 → f ≠ 0xEE → decodeWord (0x0#4 ++ z ++ f) = .nop0 z f) ∧ exec (.nop0 z f) s = .next s ∧
    (f ≠ 0x9E → f ≠ 0xA1 → decodeWord (0xE#4 ++ regBits x ++ f) = .nopE x f) ∧ exec (.nopE x f) s = .next s ∧
    (f ∉ [0x07, 0x0A, 0x15, 0x18, 0x1E, 0x29, 0x33, 0x55, 0x65] →
      decodeWord (0xF#4 ++ regBits x ++ f) = .nopF x f) ∧ exec (.nopF x f) s = .next s ∧
    (5 < z.toNat → exec (decodeWord (0x8#4 ++ regBits x ++ regBits y ++ z)) s = .next s) ∧
    exec (.nop8n6 x y) s = .next s ∧ exec (.nop8n7 x y) s = .next s ∧ exec (.nop8n8 x y) s = .next s ∧
    exec (.nop8n9 x y) s = .next s ∧ exec (.nop8nA x y) s = .next s ∧ exec (.nop8nB x y) s = .next s ∧
    exec (.nop8nC x y) s = .next s ∧ exec (.nop8nD x y) s = .next s ∧ exec (.nop8nE x y) s = .next s ∧
    exec (.nop8nF x y) s = .next s

/-! ### Whole-machine rules -/

/-- The writes column of rule R32: an instruction changes no register but those listed for it. -/
def Obligations.RegistersChangeOnlyAsListed : Prop :=
  ∀ (i : Instr) (s t : State), exec i s = .next t → ∀ r, r ∉ writtenRegs i → t.reg r = s.reg r

/-- Rule R36: VF changes only under ADD, SUB and DRW, or as the destination register of an instruction. -/
def Obligations.FlagRegisterWriters : Prop :=
  ∀ (i : Instr) (s t : State), exec i s = .next t → t.reg VF ≠ s.reg VF →
    (∃ x y, i = .addReg x y ∨ i = .subReg x y) ∨ (∃ x y n, i = .drw x y n) ∨
    (∃ nn, i = .ldImm VF nn ∨ i = .addImm VF nn ∨ i = .rnd VF nn) ∨
    (∃ y, i = .ldReg VF y ∨ i = .orReg VF y ∨ i = .andReg VF y ∨ i = .xorReg VF y) ∨
    i = .ldVxDt VF ∨ i = .loadRegs VF

/-- Which instructions write each other piece of state (rules R38 to R41, R45, R46, R50, R51, R70, R238), and that none
writes the parameters or the end marker.
The counter, the status and the key vectors are the model's (assumptions 3, 4, 5), and I is left alone by the spec's
own decision D12 (assumption 23). -/
def Obligations.StateChangesOnlyUnderItsWriters : Prop :=
  ∀ (i : Instr) (s t : State), exec i s = .next t →
    t.cfg = s.cfg ∧ t.progEnd = s.progEnd ∧ t.keyInputs = s.keyInputs ∧ t.status = s.status ∧
    (t.fb ≠ s.fb ∨ t.redraw ≠ s.redraw → (∃ z, i = .cls z) ∨ ∃ x y n, i = .drw x y n) ∧
    (t.stack ≠ s.stack → (∃ z, i = .ret z) ∨ ∃ nnn, i = .call nnn) ∧
    (t.index ≠ s.index → (∃ nnn, i = .ldI nnn) ∨ ∃ x, i = .addI x ∨ i = .ldF x) ∧
    ((∃ a, t.byteAt a ≠ s.byteAt a) → ∃ x, i = .ldB x ∨ i = .storeRegs x) ∧
    (t.dt ≠ s.dt → ∃ x, i = .ldDtVx x) ∧ (t.st ≠ s.st → ∃ x, i = .ldStVx x) ∧
    (t.await ≠ s.await → ∃ x, i = .ldVxK x) ∧ (t.draws ≠ s.draws → ∃ x nn, i = .rnd x nn)

/-- Rule R35: which instructions change pc after the fetch advance. -/
def Obligations.PcChangesOnlyInControlFlow : Prop :=
  ∀ (i : Instr) (s t : State), exec i s = .next t → t.pc ≠ s.pc →
    (∃ z, i = .ret z) ∨ (∃ nnn, i = .jp nnn ∨ i = .call nnn ∨ i = .jpV0 nnn) ∨
    (∃ x nn, i = .seImm x nn ∨ i = .sneImm x nn) ∨ (∃ x y z, i = .seReg x y z ∨ i = .sneReg x y z) ∨
    ∃ x, i = .skp x ∨ i = .sknp x

/-- Rules R46 and R150: no step clears the redraw flag, writes the parameters or moves the end marker.
That no step clears redraw is the spec's own decision D21, and that the parameters stand in State is the model's
(assumptions 2, 31). -/
def Obligations.StepKeepsRedrawParametersAndMarker : Prop :=
  ∀ s t : State, step s = .next t →
    (s.redraw = true → t.redraw = true) ∧ t.cfg = s.cfg ∧ t.progEnd = s.progEnd

/-- Rule R340: an instruction raises only the faults listed for it, in the cases listed.
The reasons but StackUnderflow are the spec's own decisions D1, D5, D7 and D8 (assumptions 14, 16, 17, 18, 26). -/
def Obligations.FaultsAreRaisedOnlyAsListed : Prop :=
  ∀ (i : Instr) (s t : State), exec i s = .next t →
    t.fault = s.fault ∨ ∃ r, t.fault = some r ∧ RaisedBy i s r

/-- Rule R340: where the default policies hold, the only fault a step can raise is StackUnderflow, by a RET on an empty
stack; the values of the glyph table and the operand timing do not matter.
The default policies are the spec's own decisions D1, D5, D7 and D8 (assumptions 14, 16, 17, 18). -/
def Obligations.DefaultPoliciesRaiseOnlyUnderflow : Prop :=
  ∀ (s t : State) (r : Fault), s.cfg.memOor = .wrap → s.cfg.fontWrites ≠ .fault → s.cfg.keyOor = .notPressed →
    s.cfg.stackCapacity = .unbounded → s.fault = none → step s = .next t → t.fault = some r →
    r = .stackUnderflow ∧ s.stack = [] ∧ s.Active ∧ ∃ z, decodeWord s.opcode = .ret z
end

