-- ==== Sys2Proof/Laws/State.lean ====
section
/-! SUPPORT. What each named update does to each field of State, one lemma per field per update, so that no proof unfolds a record update. -/
namespace Sys2Proof.Machine

variable (s : State)

@[simp] theorem State.setReg_cfg (r : Reg) (v : Byte) : (s.setReg r v).cfg = s.cfg := rfl
@[simp] theorem State.setReg_regs (r : Reg) (v : Byte) : (s.setReg r v).regs = s.regs.set r.val v := rfl
@[simp] theorem State.setReg_index (r : Reg) (v : Byte) : (s.setReg r v).index = s.index := rfl
@[simp] theorem State.setReg_pc (r : Reg) (v : Byte) : (s.setReg r v).pc = s.pc := rfl
@[simp] theorem State.setReg_stack (r : Reg) (v : Byte) : (s.setReg r v).stack = s.stack := rfl
@[simp] theorem State.setReg_dt (r : Reg) (v : Byte) : (s.setReg r v).dt = s.dt := rfl
@[simp] theorem State.setReg_st (r : Reg) (v : Byte) : (s.setReg r v).st = s.st := rfl
@[simp] theorem State.setReg_mem (r : Reg) (v : Byte) : (s.setReg r v).mem = s.mem := rfl
@[simp] theorem State.setReg_fb (r : Reg) (v : Byte) : (s.setReg r v).fb = s.fb := rfl
@[simp] theorem State.setReg_redraw (r : Reg) (v : Byte) : (s.setReg r v).redraw = s.redraw := rfl
@[simp] theorem State.setReg_progEnd (r : Reg) (v : Byte) : (s.setReg r v).progEnd = s.progEnd := rfl
@[simp] theorem State.setReg_await (r : Reg) (v : Byte) : (s.setReg r v).await = s.await := rfl
@[simp] theorem State.setReg_fault (r : Reg) (v : Byte) : (s.setReg r v).fault = s.fault := rfl
@[simp] theorem State.setReg_draws (r : Reg) (v : Byte) : (s.setReg r v).draws = s.draws := rfl
@[simp] theorem State.setReg_keyInputs (r : Reg) (v : Byte) : (s.setReg r v).keyInputs = s.keyInputs := rfl
@[simp] theorem State.setReg_status (r : Reg) (v : Byte) : (s.setReg r v).status = s.status := rfl

@[simp] theorem State.setIndex_cfg (v : Word) : (s.setIndex v).cfg = s.cfg := rfl
@[simp] theorem State.setIndex_regs (v : Word) : (s.setIndex v).regs = s.regs := rfl
@[simp] theorem State.setIndex_index (v : Word) : (s.setIndex v).index = v := rfl
@[simp] theorem State.setIndex_pc (v : Word) : (s.setIndex v).pc = s.pc := rfl
@[simp] theorem State.setIndex_stack (v : Word) : (s.setIndex v).stack = s.stack := rfl
@[simp] theorem State.setIndex_dt (v : Word) : (s.setIndex v).dt = s.dt := rfl
@[simp] theorem State.setIndex_st (v : Word) : (s.setIndex v).st = s.st := rfl
@[simp] theorem State.setIndex_mem (v : Word) : (s.setIndex v).mem = s.mem := rfl
@[simp] theorem State.setIndex_fb (v : Word) : (s.setIndex v).fb = s.fb := rfl
@[simp] theorem State.setIndex_redraw (v : Word) : (s.setIndex v).redraw = s.redraw := rfl
@[simp] theorem State.setIndex_progEnd (v : Word) : (s.setIndex v).progEnd = s.progEnd := rfl
@[simp] theorem State.setIndex_await (v : Word) : (s.setIndex v).await = s.await := rfl
@[simp] theorem State.setIndex_fault (v : Word) : (s.setIndex v).fault = s.fault := rfl
@[simp] theorem State.setIndex_draws (v : Word) : (s.setIndex v).draws = s.draws := rfl
@[simp] theorem State.setIndex_keyInputs (v : Word) : (s.setIndex v).keyInputs = s.keyInputs := rfl
@[simp] theorem State.setIndex_status (v : Word) : (s.setIndex v).status = s.status := rfl

@[simp] theorem State.setPc_cfg (v : Word) : (s.setPc v).cfg = s.cfg := rfl
@[simp] theorem State.setPc_regs (v : Word) : (s.setPc v).regs = s.regs := rfl
@[simp] theorem State.setPc_index (v : Word) : (s.setPc v).index = s.index := rfl
@[simp] theorem State.setPc_pc (v : Word) : (s.setPc v).pc = v := rfl
@[simp] theorem State.setPc_stack (v : Word) : (s.setPc v).stack = s.stack := rfl
@[simp] theorem State.setPc_dt (v : Word) : (s.setPc v).dt = s.dt := rfl
@[simp] theorem State.setPc_st (v : Word) : (s.setPc v).st = s.st := rfl
@[simp] theorem State.setPc_mem (v : Word) : (s.setPc v).mem = s.mem := rfl
@[simp] theorem State.setPc_fb (v : Word) : (s.setPc v).fb = s.fb := rfl
@[simp] theorem State.setPc_redraw (v : Word) : (s.setPc v).redraw = s.redraw := rfl
@[simp] theorem State.setPc_progEnd (v : Word) : (s.setPc v).progEnd = s.progEnd := rfl
@[simp] theorem State.setPc_await (v : Word) : (s.setPc v).await = s.await := rfl
@[simp] theorem State.setPc_fault (v : Word) : (s.setPc v).fault = s.fault := rfl
@[simp] theorem State.setPc_draws (v : Word) : (s.setPc v).draws = s.draws := rfl
@[simp] theorem State.setPc_keyInputs (v : Word) : (s.setPc v).keyInputs = s.keyInputs := rfl
@[simp] theorem State.setPc_status (v : Word) : (s.setPc v).status = s.status := rfl

@[simp] theorem State.setStack_cfg (l : List Word) : (s.setStack l).cfg = s.cfg := rfl
@[simp] theorem State.setStack_regs (l : List Word) : (s.setStack l).regs = s.regs := rfl
@[simp] theorem State.setStack_index (l : List Word) : (s.setStack l).index = s.index := rfl
@[simp] theorem State.setStack_pc (l : List Word) : (s.setStack l).pc = s.pc := rfl
@[simp] theorem State.setStack_stack (l : List Word) : (s.setStack l).stack = l := rfl
@[simp] theorem State.setStack_dt (l : List Word) : (s.setStack l).dt = s.dt := rfl
@[simp] theorem State.setStack_st (l : List Word) : (s.setStack l).st = s.st := rfl
@[simp] theorem State.setStack_mem (l : List Word) : (s.setStack l).mem = s.mem := rfl
@[simp] theorem State.setStack_fb (l : List Word) : (s.setStack l).fb = s.fb := rfl
@[simp] theorem State.setStack_redraw (l : List Word) : (s.setStack l).redraw = s.redraw := rfl
@[simp] theorem State.setStack_progEnd (l : List Word) : (s.setStack l).progEnd = s.progEnd := rfl
@[simp] theorem State.setStack_await (l : List Word) : (s.setStack l).await = s.await := rfl
@[simp] theorem State.setStack_fault (l : List Word) : (s.setStack l).fault = s.fault := rfl
@[simp] theorem State.setStack_draws (l : List Word) : (s.setStack l).draws = s.draws := rfl
@[simp] theorem State.setStack_keyInputs (l : List Word) : (s.setStack l).keyInputs = s.keyInputs := rfl
@[simp] theorem State.setStack_status (l : List Word) : (s.setStack l).status = s.status := rfl

@[simp] theorem State.setDt_cfg (v : Byte) : (s.setDt v).cfg = s.cfg := rfl
@[simp] theorem State.setDt_regs (v : Byte) : (s.setDt v).regs = s.regs := rfl
@[simp] theorem State.setDt_index (v : Byte) : (s.setDt v).index = s.index := rfl
@[simp] theorem State.setDt_pc (v : Byte) : (s.setDt v).pc = s.pc := rfl
@[simp] theorem State.setDt_stack (v : Byte) : (s.setDt v).stack = s.stack := rfl
@[simp] theorem State.setDt_dt (v : Byte) : (s.setDt v).dt = v := rfl
@[simp] theorem State.setDt_st (v : Byte) : (s.setDt v).st = s.st := rfl
@[simp] theorem State.setDt_mem (v : Byte) : (s.setDt v).mem = s.mem := rfl
@[simp] theorem State.setDt_fb (v : Byte) : (s.setDt v).fb = s.fb := rfl
@[simp] theorem State.setDt_redraw (v : Byte) : (s.setDt v).redraw = s.redraw := rfl
@[simp] theorem State.setDt_progEnd (v : Byte) : (s.setDt v).progEnd = s.progEnd := rfl
@[simp] theorem State.setDt_await (v : Byte) : (s.setDt v).await = s.await := rfl
@[simp] theorem State.setDt_fault (v : Byte) : (s.setDt v).fault = s.fault := rfl
@[simp] theorem State.setDt_draws (v : Byte) : (s.setDt v).draws = s.draws := rfl
@[simp] theorem State.setDt_keyInputs (v : Byte) : (s.setDt v).keyInputs = s.keyInputs := rfl
@[simp] theorem State.setDt_status (v : Byte) : (s.setDt v).status = s.status := rfl

@[simp] theorem State.setSt_cfg (v : Byte) : (s.setSt v).cfg = s.cfg := rfl
@[simp] theorem State.setSt_regs (v : Byte) : (s.setSt v).regs = s.regs := rfl
@[simp] theorem State.setSt_index (v : Byte) : (s.setSt v).index = s.index := rfl
@[simp] theorem State.setSt_pc (v : Byte) : (s.setSt v).pc = s.pc := rfl
@[simp] theorem State.setSt_stack (v : Byte) : (s.setSt v).stack = s.stack := rfl
@[simp] theorem State.setSt_dt (v : Byte) : (s.setSt v).dt = s.dt := rfl
@[simp] theorem State.setSt_st (v : Byte) : (s.setSt v).st = v := rfl
@[simp] theorem State.setSt_mem (v : Byte) : (s.setSt v).mem = s.mem := rfl
@[simp] theorem State.setSt_fb (v : Byte) : (s.setSt v).fb = s.fb := rfl
@[simp] theorem State.setSt_redraw (v : Byte) : (s.setSt v).redraw = s.redraw := rfl
@[simp] theorem State.setSt_progEnd (v : Byte) : (s.setSt v).progEnd = s.progEnd := rfl
@[simp] theorem State.setSt_await (v : Byte) : (s.setSt v).await = s.await := rfl
@[simp] theorem State.setSt_fault (v : Byte) : (s.setSt v).fault = s.fault := rfl
@[simp] theorem State.setSt_draws (v : Byte) : (s.setSt v).draws = s.draws := rfl
@[simp] theorem State.setSt_keyInputs (v : Byte) : (s.setSt v).keyInputs = s.keyInputs := rfl
@[simp] theorem State.setSt_status (v : Byte) : (s.setSt v).status = s.status := rfl

@[simp] theorem State.setMem_cfg (m : Memory) : (s.setMem m).cfg = s.cfg := rfl
@[simp] theorem State.setMem_regs (m : Memory) : (s.setMem m).regs = s.regs := rfl
@[simp] theorem State.setMem_index (m : Memory) : (s.setMem m).index = s.index := rfl
@[simp] theorem State.setMem_pc (m : Memory) : (s.setMem m).pc = s.pc := rfl
@[simp] theorem State.setMem_stack (m : Memory) : (s.setMem m).stack = s.stack := rfl
@[simp] theorem State.setMem_dt (m : Memory) : (s.setMem m).dt = s.dt := rfl
@[simp] theorem State.setMem_st (m : Memory) : (s.setMem m).st = s.st := rfl
@[simp] theorem State.setMem_mem (m : Memory) : (s.setMem m).mem = m := rfl
@[simp] theorem State.setMem_fb (m : Memory) : (s.setMem m).fb = s.fb := rfl
@[simp] theorem State.setMem_redraw (m : Memory) : (s.setMem m).redraw = s.redraw := rfl
@[simp] theorem State.setMem_progEnd (m : Memory) : (s.setMem m).progEnd = s.progEnd := rfl
@[simp] theorem State.setMem_await (m : Memory) : (s.setMem m).await = s.await := rfl
@[simp] theorem State.setMem_fault (m : Memory) : (s.setMem m).fault = s.fault := rfl
@[simp] theorem State.setMem_draws (m : Memory) : (s.setMem m).draws = s.draws := rfl
@[simp] theorem State.setMem_keyInputs (m : Memory) : (s.setMem m).keyInputs = s.keyInputs := rfl
@[simp] theorem State.setMem_status (m : Memory) : (s.setMem m).status = s.status := rfl

@[simp] theorem State.setFb_cfg (f : Vector Bool 2048) : (s.setFb f).cfg = s.cfg := rfl
@[simp] theorem State.setFb_regs (f : Vector Bool 2048) : (s.setFb f).regs = s.regs := rfl
@[simp] theorem State.setFb_index (f : Vector Bool 2048) : (s.setFb f).index = s.index := rfl
@[simp] theorem State.setFb_pc (f : Vector Bool 2048) : (s.setFb f).pc = s.pc := rfl
@[simp] theorem State.setFb_stack (f : Vector Bool 2048) : (s.setFb f).stack = s.stack := rfl
@[simp] theorem State.setFb_dt (f : Vector Bool 2048) : (s.setFb f).dt = s.dt := rfl
@[simp] theorem State.setFb_st (f : Vector Bool 2048) : (s.setFb f).st = s.st := rfl
@[simp] theorem State.setFb_mem (f : Vector Bool 2048) : (s.setFb f).mem = s.mem := rfl
@[simp] theorem State.setFb_fb (f : Vector Bool 2048) : (s.setFb f).fb = f := rfl
@[simp] theorem State.setFb_redraw (f : Vector Bool 2048) : (s.setFb f).redraw = s.redraw := rfl
@[simp] theorem State.setFb_progEnd (f : Vector Bool 2048) : (s.setFb f).progEnd = s.progEnd := rfl
@[simp] theorem State.setFb_await (f : Vector Bool 2048) : (s.setFb f).await = s.await := rfl
@[simp] theorem State.setFb_fault (f : Vector Bool 2048) : (s.setFb f).fault = s.fault := rfl
@[simp] theorem State.setFb_draws (f : Vector Bool 2048) : (s.setFb f).draws = s.draws := rfl
@[simp] theorem State.setFb_keyInputs (f : Vector Bool 2048) : (s.setFb f).keyInputs = s.keyInputs := rfl
@[simp] theorem State.setFb_status (f : Vector Bool 2048) : (s.setFb f).status = s.status := rfl

@[simp] theorem State.setRedraw_cfg (b : Bool) : (s.setRedraw b).cfg = s.cfg := rfl
@[simp] theorem State.setRedraw_regs (b : Bool) : (s.setRedraw b).regs = s.regs := rfl
@[simp] theorem State.setRedraw_index (b : Bool) : (s.setRedraw b).index = s.index := rfl
@[simp] theorem State.setRedraw_pc (b : Bool) : (s.setRedraw b).pc = s.pc := rfl
@[simp] theorem State.setRedraw_stack (b : Bool) : (s.setRedraw b).stack = s.stack := rfl
@[simp] theorem State.setRedraw_dt (b : Bool) : (s.setRedraw b).dt = s.dt := rfl
@[simp] theorem State.setRedraw_st (b : Bool) : (s.setRedraw b).st = s.st := rfl
@[simp] theorem State.setRedraw_mem (b : Bool) : (s.setRedraw b).mem = s.mem := rfl
@[simp] theorem State.setRedraw_fb (b : Bool) : (s.setRedraw b).fb = s.fb := rfl
@[simp] theorem State.setRedraw_redraw (b : Bool) : (s.setRedraw b).redraw = b := rfl
@[simp] theorem State.setRedraw_progEnd (b : Bool) : (s.setRedraw b).progEnd = s.progEnd := rfl
@[simp] theorem State.setRedraw_await (b : Bool) : (s.setRedraw b).await = s.await := rfl
@[simp] theorem State.setRedraw_fault (b : Bool) : (s.setRedraw b).fault = s.fault := rfl
@[simp] theorem State.setRedraw_draws (b : Bool) : (s.setRedraw b).draws = s.draws := rfl
@[simp] theorem State.setRedraw_keyInputs (b : Bool) : (s.setRedraw b).keyInputs = s.keyInputs := rfl
@[simp] theorem State.setRedraw_status (b : Bool) : (s.setRedraw b).status = s.status := rfl

@[simp] theorem State.setProgEnd_cfg (v : Word) : (s.setProgEnd v).cfg = s.cfg := rfl
@[simp] theorem State.setProgEnd_regs (v : Word) : (s.setProgEnd v).regs = s.regs := rfl
@[simp] theorem State.setProgEnd_index (v : Word) : (s.setProgEnd v).index = s.index := rfl
@[simp] theorem State.setProgEnd_pc (v : Word) : (s.setProgEnd v).pc = s.pc := rfl
@[simp] theorem State.setProgEnd_stack (v : Word) : (s.setProgEnd v).stack = s.stack := rfl
@[simp] theorem State.setProgEnd_dt (v : Word) : (s.setProgEnd v).dt = s.dt := rfl
@[simp] theorem State.setProgEnd_st (v : Word) : (s.setProgEnd v).st = s.st := rfl
@[simp] theorem State.setProgEnd_mem (v : Word) : (s.setProgEnd v).mem = s.mem := rfl
@[simp] theorem State.setProgEnd_fb (v : Word) : (s.setProgEnd v).fb = s.fb := rfl
@[simp] theorem State.setProgEnd_redraw (v : Word) : (s.setProgEnd v).redraw = s.redraw := rfl
@[simp] theorem State.setProgEnd_progEnd (v : Word) : (s.setProgEnd v).progEnd = v := rfl
@[simp] theorem State.setProgEnd_await (v : Word) : (s.setProgEnd v).await = s.await := rfl
@[simp] theorem State.setProgEnd_fault (v : Word) : (s.setProgEnd v).fault = s.fault := rfl
@[simp] theorem State.setProgEnd_draws (v : Word) : (s.setProgEnd v).draws = s.draws := rfl
@[simp] theorem State.setProgEnd_keyInputs (v : Word) : (s.setProgEnd v).keyInputs = s.keyInputs := rfl
@[simp] theorem State.setProgEnd_status (v : Word) : (s.setProgEnd v).status = s.status := rfl

@[simp] theorem State.setAwait_cfg (o : Option Reg) : (s.setAwait o).cfg = s.cfg := rfl
@[simp] theorem State.setAwait_regs (o : Option Reg) : (s.setAwait o).regs = s.regs := rfl
@[simp] theorem State.setAwait_index (o : Option Reg) : (s.setAwait o).index = s.index := rfl
@[simp] theorem State.setAwait_pc (o : Option Reg) : (s.setAwait o).pc = s.pc := rfl
@[simp] theorem State.setAwait_stack (o : Option Reg) : (s.setAwait o).stack = s.stack := rfl
@[simp] theorem State.setAwait_dt (o : Option Reg) : (s.setAwait o).dt = s.dt := rfl
@[simp] theorem State.setAwait_st (o : Option Reg) : (s.setAwait o).st = s.st := rfl
@[simp] theorem State.setAwait_mem (o : Option Reg) : (s.setAwait o).mem = s.mem := rfl
@[simp] theorem State.setAwait_fb (o : Option Reg) : (s.setAwait o).fb = s.fb := rfl
@[simp] theorem State.setAwait_redraw (o : Option Reg) : (s.setAwait o).redraw = s.redraw := rfl
@[simp] theorem State.setAwait_progEnd (o : Option Reg) : (s.setAwait o).progEnd = s.progEnd := rfl
@[simp] theorem State.setAwait_await (o : Option Reg) : (s.setAwait o).await = o := rfl
@[simp] theorem State.setAwait_fault (o : Option Reg) : (s.setAwait o).fault = s.fault := rfl
@[simp] theorem State.setAwait_draws (o : Option Reg) : (s.setAwait o).draws = s.draws := rfl
@[simp] theorem State.setAwait_keyInputs (o : Option Reg) : (s.setAwait o).keyInputs = s.keyInputs := rfl
@[simp] theorem State.setAwait_status (o : Option Reg) : (s.setAwait o).status = s.status := rfl

@[simp] theorem State.setFault_cfg (o : Option Fault) : (s.setFault o).cfg = s.cfg := rfl
@[simp] theorem State.setFault_regs (o : Option Fault) : (s.setFault o).regs = s.regs := rfl
@[simp] theorem State.setFault_index (o : Option Fault) : (s.setFault o).index = s.index := rfl
@[simp] theorem State.setFault_pc (o : Option Fault) : (s.setFault o).pc = s.pc := rfl
@[simp] theorem State.setFault_stack (o : Option Fault) : (s.setFault o).stack = s.stack := rfl
@[simp] theorem State.setFault_dt (o : Option Fault) : (s.setFault o).dt = s.dt := rfl
@[simp] theorem State.setFault_st (o : Option Fault) : (s.setFault o).st = s.st := rfl
@[simp] theorem State.setFault_mem (o : Option Fault) : (s.setFault o).mem = s.mem := rfl
@[simp] theorem State.setFault_fb (o : Option Fault) : (s.setFault o).fb = s.fb := rfl
@[simp] theorem State.setFault_redraw (o : Option Fault) : (s.setFault o).redraw = s.redraw := rfl
@[simp] theorem State.setFault_progEnd (o : Option Fault) : (s.setFault o).progEnd = s.progEnd := rfl
@[simp] theorem State.setFault_await (o : Option Fault) : (s.setFault o).await = s.await := rfl
@[simp] theorem State.setFault_fault (o : Option Fault) : (s.setFault o).fault = o := rfl
@[simp] theorem State.setFault_draws (o : Option Fault) : (s.setFault o).draws = s.draws := rfl
@[simp] theorem State.setFault_keyInputs (o : Option Fault) : (s.setFault o).keyInputs = s.keyInputs := rfl
@[simp] theorem State.setFault_status (o : Option Fault) : (s.setFault o).status = s.status := rfl

@[simp] theorem State.countDraw_cfg : (s.countDraw).cfg = s.cfg := rfl
@[simp] theorem State.countDraw_regs : (s.countDraw).regs = s.regs := rfl
@[simp] theorem State.countDraw_index : (s.countDraw).index = s.index := rfl
@[simp] theorem State.countDraw_pc : (s.countDraw).pc = s.pc := rfl
@[simp] theorem State.countDraw_stack : (s.countDraw).stack = s.stack := rfl
@[simp] theorem State.countDraw_dt : (s.countDraw).dt = s.dt := rfl
@[simp] theorem State.countDraw_st : (s.countDraw).st = s.st := rfl
@[simp] theorem State.countDraw_mem : (s.countDraw).mem = s.mem := rfl
@[simp] theorem State.countDraw_fb : (s.countDraw).fb = s.fb := rfl
@[simp] theorem State.countDraw_redraw : (s.countDraw).redraw = s.redraw := rfl
@[simp] theorem State.countDraw_progEnd : (s.countDraw).progEnd = s.progEnd := rfl
@[simp] theorem State.countDraw_await : (s.countDraw).await = s.await := rfl
@[simp] theorem State.countDraw_fault : (s.countDraw).fault = s.fault := rfl
@[simp] theorem State.countDraw_draws : (s.countDraw).draws = s.draws + 1 := rfl
@[simp] theorem State.countDraw_keyInputs : (s.countDraw).keyInputs = s.keyInputs := rfl
@[simp] theorem State.countDraw_status : (s.countDraw).status = s.status := rfl

@[simp] theorem State.finish_cfg (r : Status) : (s.finish r).cfg = s.cfg := rfl
@[simp] theorem State.finish_regs (r : Status) : (s.finish r).regs = s.regs := rfl
@[simp] theorem State.finish_index (r : Status) : (s.finish r).index = s.index := rfl
@[simp] theorem State.finish_pc (r : Status) : (s.finish r).pc = s.pc := rfl
@[simp] theorem State.finish_stack (r : Status) : (s.finish r).stack = s.stack := rfl
@[simp] theorem State.finish_dt (r : Status) : (s.finish r).dt = s.dt := rfl
@[simp] theorem State.finish_st (r : Status) : (s.finish r).st = s.st := rfl
@[simp] theorem State.finish_mem (r : Status) : (s.finish r).mem = s.mem := rfl
@[simp] theorem State.finish_fb (r : Status) : (s.finish r).fb = s.fb := rfl
@[simp] theorem State.finish_redraw (r : Status) : (s.finish r).redraw = s.redraw := rfl
@[simp] theorem State.finish_progEnd (r : Status) : (s.finish r).progEnd = s.progEnd := rfl
@[simp] theorem State.finish_await (r : Status) : (s.finish r).await = s.await := rfl
@[simp] theorem State.finish_fault (r : Status) : (s.finish r).fault = s.fault := rfl
@[simp] theorem State.finish_draws (r : Status) : (s.finish r).draws = s.draws := rfl
@[simp] theorem State.finish_keyInputs (r : Status) : (s.finish r).keyInputs = s.keyInputs.tail := rfl
@[simp] theorem State.finish_status (r : Status) : (s.finish r).status = r := rfl

/-! Registers read through `State.reg`. -/

@[simp] theorem State.reg_setReg_same (r : Reg) (v : Byte) : (s.setReg r v).reg r = v := by
  simp [State.reg, State.setReg]

theorem State.reg_setReg_other (r q : Reg) (v : Byte) (h : q ≠ r) : (s.setReg r v).reg q = s.reg q := by
  have h' : r.val ≠ q.val := fun e => h (Fin.ext e.symm)
  simp [State.reg, State.setReg, h']

@[simp] theorem State.reg_setIndex (v : Word) (q : Reg) : (s.setIndex v).reg q = s.reg q := rfl
@[simp] theorem State.reg_setPc (v : Word) (q : Reg) : (s.setPc v).reg q = s.reg q := rfl
@[simp] theorem State.reg_setStack (l : List Word) (q : Reg) : (s.setStack l).reg q = s.reg q := rfl
@[simp] theorem State.reg_setDt (v : Byte) (q : Reg) : (s.setDt v).reg q = s.reg q := rfl
@[simp] theorem State.reg_setSt (v : Byte) (q : Reg) : (s.setSt v).reg q = s.reg q := rfl
@[simp] theorem State.reg_setMem (m : Memory) (q : Reg) : (s.setMem m).reg q = s.reg q := rfl
@[simp] theorem State.reg_setFb (f : Vector Bool 2048) (q : Reg) : (s.setFb f).reg q = s.reg q := rfl
@[simp] theorem State.reg_setRedraw (b : Bool) (q : Reg) : (s.setRedraw b).reg q = s.reg q := rfl
@[simp] theorem State.reg_setProgEnd (v : Word) (q : Reg) : (s.setProgEnd v).reg q = s.reg q := rfl
@[simp] theorem State.reg_setAwait (o : Option Reg) (q : Reg) : (s.setAwait o).reg q = s.reg q := rfl
@[simp] theorem State.reg_setFault (o : Option Fault) (q : Reg) : (s.setFault o).reg q = s.reg q := rfl
@[simp] theorem State.reg_countDraw (q : Reg) : (s.countDraw).reg q = s.reg q := rfl
@[simp] theorem State.reg_finish (r : Status) (q : Reg) : (s.finish r).reg q = s.reg q := rfl

/-! Bytes of memory read through `State.byteAt`. -/

@[simp] theorem State.byteAt_setReg (r : Reg) (v : Byte) (a : Nat) : (s.setReg r v).byteAt a = s.byteAt a := rfl
@[simp] theorem State.byteAt_setIndex (v : Word) (a : Nat) : (s.setIndex v).byteAt a = s.byteAt a := rfl
@[simp] theorem State.byteAt_setPc (v : Word) (a : Nat) : (s.setPc v).byteAt a = s.byteAt a := rfl
@[simp] theorem State.byteAt_setStack (l : List Word) (a : Nat) : (s.setStack l).byteAt a = s.byteAt a := rfl
@[simp] theorem State.byteAt_setDt (v : Byte) (a : Nat) : (s.setDt v).byteAt a = s.byteAt a := rfl
@[simp] theorem State.byteAt_setSt (v : Byte) (a : Nat) : (s.setSt v).byteAt a = s.byteAt a := rfl
@[simp] theorem State.byteAt_setFb (f : Vector Bool 2048) (a : Nat) : (s.setFb f).byteAt a = s.byteAt a := rfl
@[simp] theorem State.byteAt_setRedraw (b : Bool) (a : Nat) : (s.setRedraw b).byteAt a = s.byteAt a := rfl
@[simp] theorem State.byteAt_setProgEnd (v : Word) (a : Nat) : (s.setProgEnd v).byteAt a = s.byteAt a := rfl
@[simp] theorem State.byteAt_setAwait (o : Option Reg) (a : Nat) : (s.setAwait o).byteAt a = s.byteAt a := rfl
@[simp] theorem State.byteAt_setFault (o : Option Fault) (a : Nat) : (s.setFault o).byteAt a = s.byteAt a := rfl
@[simp] theorem State.byteAt_countDraw (a : Nat) : (s.countDraw).byteAt a = s.byteAt a := rfl
@[simp] theorem State.byteAt_finish (r : Status) (a : Nat) : (s.finish r).byteAt a = s.byteAt a := rfl

/-! Fault entry writes the fault status and nothing else (rule R344). -/

@[simp] theorem State.raise_fault (r : Fault) : (s.raise r).fault = some r := rfl
theorem State.raise_eq (r : Fault) : s.raise r = { s with fault := some r } := rfl

/-- A result in the next-state form, and what was done to it. -/
@[simp] theorem onNext_next (f : State → State) : onNext f (.next s) = .next (f s) := rfl

end Sys2Proof.Machine
end

