-- ==== Sys2Proof/Laws/Memory.lean ====
section
/-! SUPPORT. The laws of memory: a byte read after a store, the canonical form kept by every operation, and its uniqueness. -/
namespace Sys2Proof.Machine

/-! ### Reading after storing -/

theorem Memory.find_insert (m : Memory) (a c : Nat) (b : Byte) :
    Memory.find (Memory.insert m a b) c = if c = a then some b else Memory.find m c := by
  induction m with
  | nil => simp [Memory.insert, Memory.find, eq_comm]
  | cons p m ih =>
    rw [Memory.insert]
    by_cases h1 : a < p.1
    · simp [h1, Memory.find, eq_comm]
    · by_cases h2 : a = p.1
      · subst h2
        by_cases h3 : c = p.1
        · simp [Memory.find, h3]
        · simp [Memory.find, h3, Ne.symm h3]
      · by_cases h3 : p.1 = c
        · subst h3
          simp [h1, h2, Memory.find, Ne.symm h2]
        · simp [h1, h2, Memory.find, h3, ih]

theorem Memory.find_erase (m : Memory) (a c : Nat) :
    Memory.find (Memory.erase m a) c = if c = a then none else Memory.find m c := by
  induction m with
  | nil => simp [Memory.erase, Memory.find]
  | cons p m ih =>
    rw [Memory.erase] at ih ⊢
    by_cases h1 : p.1 = a
    · subst h1
      by_cases h2 : c = p.1
      · simp [h2] at ih ⊢
        exact ih
      · simp [h2, Ne.symm h2, Memory.find] at ih ⊢
        exact ih
    · by_cases h2 : p.1 = c
      · subst h2
        simp [h1, Memory.find]
      · simp [h1, h2, Memory.find, ih]

/-- A byte reads as the last one stored at its address. -/
theorem Memory.peek_poke (g : GlyphTable) (m : Memory) (a c : Nat) (b : Byte) :
    Memory.peek g (Memory.poke g m a b) c = if c = a then b else Memory.peek g m c := by
  unfold Memory.poke
  by_cases h : b = resetByte g a
  · rw [if_pos h]
    by_cases hc : c = a
    · subst hc; simp [Memory.peek, Memory.find_erase, h]
    · simp [Memory.peek, Memory.find_erase, hc]
  · rw [if_neg h]
    by_cases hc : c = a <;> simp [Memory.peek, Memory.find_insert, hc]

@[simp] theorem Memory.peek_poke_same (g : GlyphTable) (m : Memory) (a : Nat) (b : Byte) :
    Memory.peek g (Memory.poke g m a b) a = b := by simp [Memory.peek_poke]

theorem Memory.peek_poke_other (g : GlyphTable) (m : Memory) (a c : Nat) (b : Byte) (h : c ≠ a) :
    Memory.peek g (Memory.poke g m a b) c = Memory.peek g m c := by simp [Memory.peek_poke, h]

/-- Consecutive stores: inside the stored range the byte listed for the address, outside it what was there. -/
theorem Memory.peek_pokeAll (g : GlyphTable) (bs : List Byte) (m : Memory) (a c : Nat) :
    Memory.peek g (Memory.pokeAll g m a bs) c =
      if h : a ≤ c ∧ c - a < bs.length then bs[c - a] else Memory.peek g m c := by
  induction bs generalizing m a with
  | nil => simp [Memory.pokeAll]
  | cons b bs ih =>
    rw [Memory.pokeAll, ih]
    by_cases h1 : a + 1 ≤ c ∧ c - (a + 1) < bs.length
    · have h2 : a ≤ c ∧ c - a < (b :: bs).length := by simp only [List.length_cons]; omega
      have h3 : c - a = (c - (a + 1)) + 1 := by omega
      rw [dif_pos h1, dif_pos h2]
      simp only [h3, List.getElem_cons_succ]
    · rw [dif_neg h1, Memory.peek_poke]
      by_cases h4 : c = a
      · subst h4; simp
      · have h2 : ¬ (a ≤ c ∧ c - a < (b :: bs).length) := by simp only [List.length_cons]; omega
        rw [dif_neg h2, if_neg h4]

/-! ### The canonical form -/

theorem Memory.mem_insert {m : Memory} {a : Nat} {b : Byte} {c : Host.Cell} (h : c ∈ Memory.insert m a b) :
    c = (a, b) ∨ c ∈ m := by
  induction m with
  | nil => simpa [Memory.insert] using h
  | cons p m ih =>
    rw [Memory.insert] at h
    split at h
    · simpa using h
    · split at h
      · rcases List.mem_cons.1 h with h | h
        · exact .inl h
        · exact .inr (List.mem_cons_of_mem _ h)
      · rcases List.mem_cons.1 h with h | h
        · exact .inr (h ▸ List.mem_cons_self)
        · rcases ih h with h | h
          · exact .inl h
          · exact .inr (List.mem_cons_of_mem _ h)

theorem Memory.insert_rising (m : Memory) (a : Nat) (b : Byte) (h : m.Pairwise (fun p q => p.1 < q.1)) :
    (Memory.insert m a b).Pairwise (fun p q => p.1 < q.1) := by
  induction m with
  | nil => simp [Memory.insert]
  | cons p m ih =>
    have hp := List.pairwise_cons.1 h
    rw [Memory.insert]
    split
    · rename_i hlt
      refine List.pairwise_cons.2 ⟨fun q hq => ?_, h⟩
      rcases List.mem_cons.1 hq with hq | hq
      · subst hq; exact hlt
      · exact Nat.lt_trans hlt (hp.1 q hq)
    · split
      · rename_i heq
        exact List.pairwise_cons.2 ⟨fun q hq => heq ▸ hp.1 q hq, hp.2⟩
      · rename_i h1 h2
        refine List.pairwise_cons.2 ⟨fun q hq => ?_, ih hp.2⟩
        rcases Memory.mem_insert hq with hq | hq
        · subst hq; show p.1 < a; omega
        · exact hp.1 q hq

/-- A store inside memory keeps the canonical form. -/
theorem Memory.wf_poke {g : GlyphTable} {m : Memory} {a : Nat} {b : Byte} (hm : Memory.wf g m) (ha : a < 4096) :
    Memory.wf g (Memory.poke g m a b) := by
  unfold Memory.poke
  split
  · exact ⟨hm.1.filter _, fun c hc => hm.2 c (List.mem_of_mem_filter hc)⟩
  · rename_i hb
    refine ⟨Memory.insert_rising m a b hm.1, fun c hc => ?_⟩
    rcases Memory.mem_insert hc with hc | hc
    · subst hc; exact ⟨ha, hb⟩
    · exact hm.2 c hc

/-- Consecutive stores inside memory keep the canonical form. -/
theorem Memory.wf_pokeAll {g : GlyphTable} (bs : List Byte) {m : Memory} {a : Nat} (hm : Memory.wf g m)
    (ha : a + bs.length ≤ 4096) : Memory.wf g (Memory.pokeAll g m a bs) := by
  induction bs generalizing m a with
  | nil => exact hm
  | cons b bs ih =>
    rw [List.length_cons] at ha
    exact ih (Memory.wf_poke hm (by omega)) (by omega)

/-- Memory after Initialize lists nothing. -/
theorem Memory.wf_nil (g : GlyphTable) : Memory.wf g [] := by simp [Memory.wf]

/-! ### Stores of the machine -/

@[simp] theorem State.byteAt_pokeByte (s : State) (a c : Nat) (v : Byte) :
    (s.pokeByte a v).byteAt c = if c = a then v else s.byteAt c :=
  Memory.peek_poke s.cfg.glyphs s.mem a c v

theorem State.pokeByte_eq (s : State) (a : Nat) (v : Byte) :
    s.pokeByte a v = { s with mem := Memory.poke s.cfg.glyphs s.mem a v } := rfl

end Sys2Proof.Machine
end

