-- ==== Sys2Proof/Laws/Ops.lean ====
section
/-! SUPPORT. One lemma per shared operation that says everything it can do; proofs cite these and unfold nothing. -/
namespace Sys2Proof.Machine

/-! ### Address reduction and single accesses (rules R73, R75) -/

theorem reduce_ok {p : Config.MemOorPolicy} {a b : Nat} (h : reduce p a = .ok b) : b < 4096 ∧ b = a % 4096 := by
  cases p with
  | wrap =>
    injection h with h
    exact ⟨h ▸ Nat.mod_lt _ (by decide), h.symm⟩
  | fault =>
    simp only [reduce] at h
    split at h
    · cases h
    · injection h with h; omega

theorem reduce_error {p : Config.MemOorPolicy} {a : Nat} {r : Fault} (h : reduce p a = .error r) :
    p = .fault ∧ 4096 ≤ a ∧ r = .addressOutOfRange a := by
  cases p with
  | wrap => cases h
  | fault =>
    simp only [reduce] at h
    split at h
    · injection h with h; exact ⟨rfl, ‹_›, h.symm⟩
    · cases h

theorem reduce_inRange {s : State} {a : Nat} (h : s.InRange a) : reduce s.cfg.memOor a = .ok (a % 4096) := by
  cases hp : s.cfg.memOor with
  | wrap => rfl
  | fault =>
    rcases h with h | h
    · simp [hp] at h
    · have hn : ¬ 4096 ≤ a := by omega
      simp [reduce, hn, Nat.mod_eq_of_lt h]

theorem reduce_outOfRange {s : State} {a : Nat} (h : ¬ s.InRange a) :
    reduce s.cfg.memOor a = .error (.addressOutOfRange a) := by
  cases hp : s.cfg.memOor with
  | wrap => exact absurd (.inl hp) h
  | fault =>
    have ha : 4096 ≤ a := by
      rcases Nat.lt_or_ge a 4096 with h' | h'
      · exact absurd (.inr h') h
      · exact h'
    simp [reduce, ha]

/-- A read in range answers the byte at the address modulo 4096. -/
theorem State.memRead_inRange {s : State} {a : Nat} (h : s.InRange a) : s.memRead a = .ok (s.byteAt (a % 4096)) := by
  simp [State.memRead, reduce_inRange h]

/-- A read out of range raises, and nothing else does. -/
theorem State.memRead_outOfRange {s : State} {a : Nat} (h : ¬ s.InRange a) :
    s.memRead a = .error (.addressOutOfRange a) := by
  simp [State.memRead, reduce_outOfRange h]

theorem State.memRead_error {s : State} {a : Nat} {r : Fault} (h : s.memRead a = .error r) :
    s.cfg.memOor = .fault ∧ 4096 ≤ a ∧ r = .addressOutOfRange a := by
  unfold State.memRead at h
  split at h
  · cases h
  · injection h with h; subst h; exact reduce_error ‹_›

/-- Everything one write can do: store the byte, discard it below 0x050, or raise (rule R75). -/
theorem State.memWrite_cases (s : State) (a : Nat) (v : Byte) :
    (s.memWrite a v = .ok (s.pokeByte (a % 4096) v) ∧ (0x50 ≤ a % 4096 ∨ s.cfg.fontWrites = .write)) ∨
    (s.memWrite a v = .ok s ∧ a % 4096 < 0x50 ∧ s.cfg.fontWrites = .discard) ∨
    (s.memWrite a v = .error (.fontRegionWrite (a % 4096)) ∧ a % 4096 < 0x50 ∧ s.cfg.fontWrites = .fault) ∨
    (s.memWrite a v = .error (.addressOutOfRange a) ∧ s.cfg.memOor = .fault ∧ 4096 ≤ a) := by
  unfold State.memWrite
  cases hr : reduce s.cfg.memOor a with
  | error r =>
    obtain ⟨h1, h2, h3⟩ := reduce_error hr
    subst h3
    exact .inr (.inr (.inr ⟨rfl, h1, h2⟩))
  | ok b =>
    obtain ⟨-, rfl⟩ := reduce_ok hr
    by_cases hb : a % 4096 < 0x50
    · cases hf : s.cfg.fontWrites <;> simp [hb]
    · simp [hb]; omega

/-- A write stores at most one byte, at the reduced address, and changes nothing but memory. -/
theorem State.memWrite_ok {s t : State} {a : Nat} {v : Byte} (h : s.memWrite a v = .ok t) :
    t = { s with mem := t.mem } ∧ (∀ c, c ≠ a % 4096 → t.byteAt c = s.byteAt c) ∧
      (Memory.wf s.cfg.glyphs s.mem → Memory.wf s.cfg.glyphs t.mem) ∧
      (s.cfg.fontWrites ≠ .write → ∀ c, c < 0x50 → t.byteAt c = s.byteAt c) := by
  have ha : a % 4096 < 4096 := Nat.mod_lt _ (by decide)
  rcases State.memWrite_cases s a v with ⟨e, hb⟩ | ⟨e, -⟩ | ⟨e, -⟩ | ⟨e, -⟩
  · rw [e] at h
    injection h with h; subst h
    refine ⟨rfl, fun c hc => by simp [hc], fun hm => Memory.wf_poke hm ha, fun hw c hc => ?_⟩
    have : c ≠ a % 4096 := by
      rcases hb with hb | hb
      · omega
      · exact absurd hb hw
    simp [this]
  · rw [e] at h
    injection h with h; subst h
    exact ⟨rfl, fun _ _ => rfl, id, fun _ _ _ => rfl⟩
  · rw [e] at h; cases h
  · rw [e] at h; cases h

theorem State.memWrite_error {s : State} {a : Nat} {v : Byte} {r : Fault} (h : s.memWrite a v = .error r) :
    s.FaultFits r ∧ (r = .addressOutOfRange a ∨ r = .fontRegionWrite (a % 4096)) := by
  rcases State.memWrite_cases s a v with ⟨e, -⟩ | ⟨e, -⟩ | ⟨e, hb, hf⟩ | ⟨e, hm, ha⟩
  · rw [e] at h; cases h
  · rw [e] at h; cases h
  · rw [e] at h; injection h with h; subst h; exact ⟨⟨hf, hb⟩, .inr rfl⟩
  · rw [e] at h; injection h with h; subst h; exact ⟨⟨hm, ha⟩, .inl rfl⟩

/-! ### Progress -/

/-- The state an access sequence reached, raised or not. -/
def Progress.reached : Progress → State
  | .done s => s
  | .raised _ s => s

/-- What a meaning answers: the state reached, its fault status set if something was raised. -/
theorem Progress.answer_eq (p : Progress) :
    p.answer = .next p.reached ∨ ∃ r, p = .raised r p.reached ∧ p.answer = .next (p.reached.raise r) := by
  cases p with
  | done s => exact .inl rfl
  | raised r s => exact .inr ⟨r, rfl, rfl⟩

/-! ### Sequences of accesses (rule R76) -/

/-- Everything a sequence of writes can do: only memory changes, only at the addresses written, in canonical form, and the
glyph table stays unless writes go through. -/
theorem writeBytes_reached (vs : List Byte) (s : State) (a : Nat) :
    let t := (writeBytes s a vs).reached
    t = { s with mem := t.mem } ∧ (∀ c, (∀ k, k < vs.length → c ≠ (a + k) % 4096) → t.byteAt c = s.byteAt c) ∧
      (Memory.wf s.cfg.glyphs s.mem → Memory.wf s.cfg.glyphs t.mem) ∧
      (s.cfg.fontWrites ≠ .write → ∀ c, c < 0x50 → t.byteAt c = s.byteAt c) := by
  induction vs generalizing s a with
  | nil => exact ⟨rfl, fun _ _ => rfl, id, fun _ _ _ => rfl⟩
  | cons v vs ih =>
    simp only [writeBytes]
    cases hw : s.memWrite a v with
    | error r => exact ⟨rfl, fun _ _ => rfl, id, fun _ _ _ => rfl⟩
    | ok u =>
      obtain ⟨h1, h2, h3, h4⟩ := State.memWrite_ok hw
      obtain ⟨i1, i2, i3, i4⟩ := ih u (a + 1)
      have hc : u.cfg = s.cfg := by rw [h1]
      simp only [hc] at i3 i4
      refine ⟨?_, fun c hk => ?_, fun hm => i3 (h3 hm), fun hf c hc => ?_⟩
      · rw [i1, h1]
      · rw [i2 c, h2 c]
        · exact hk 0 (by simp)
        · intro k hk'
          have := hk (k + 1) (by simpa using hk')
          rwa [show a + 1 + k = a + (k + 1) by omega]
      · rw [i4 hf c hc, h4 hf c hc]

/-- A sequence of writes raises only for an address it was to write. -/
theorem writeBytes_raised {vs : List Byte} {s t : State} {a : Nat} {r : Fault} (h : writeBytes s a vs = .raised r t) :
    t.FaultFits r ∧ ∃ k, k < vs.length ∧ (r = .addressOutOfRange (a + k) ∨ r = .fontRegionWrite ((a + k) % 4096)) := by
  induction vs generalizing s a with
  | nil => cases h
  | cons v vs ih =>
    simp only [writeBytes] at h
    cases hw : s.memWrite a v with
    | error q =>
      rw [hw] at h
      injection h with h1 h2
      subst h1 h2
      exact ⟨(State.memWrite_error hw).1, 0, by simp, by simpa using (State.memWrite_error hw).2⟩
    | ok u =>
      rw [hw] at h
      obtain ⟨h1, k, hk, h2⟩ := ih h
      exact ⟨h1, k + 1, by simpa using hk, by rwa [show a + (k + 1) = a + 1 + k by omega]⟩

/-- Everything a sequence of register loads can do: only the listed registers change. -/
theorem readRegs_reached (rs : List Reg) (s : State) (a : Nat) :
    let t := (readRegs s a rs).reached
    t = { s with regs := t.regs } ∧ ∀ q, q ∉ rs → t.reg q = s.reg q := by
  induction rs generalizing s a with
  | nil => exact ⟨rfl, fun _ _ => rfl⟩
  | cons r rs ih =>
    simp only [readRegs]
    cases hr : s.memRead a with
    | error f => exact ⟨rfl, fun _ _ => rfl⟩
    | ok v =>
      obtain ⟨i1, i2⟩ := ih (s.setReg r v) (a + 1)
      refine ⟨by rw [i1]; rfl, fun q hq => ?_⟩
      rw [List.mem_cons, not_or] at hq
      rw [i2 q hq.2, State.reg_setReg_other _ _ _ _ hq.1]

/-- A sequence of register loads raises only for an address it was to read. -/
theorem readRegs_raised {rs : List Reg} {s t : State} {a : Nat} {f : Fault} (h : readRegs s a rs = .raised f t) :
    s.cfg.memOor = .fault ∧ ∃ k, k < rs.length ∧ 4096 ≤ a + k ∧ f = .addressOutOfRange (a + k) := by
  induction rs generalizing s a with
  | nil => cases h
  | cons r rs ih =>
    simp only [readRegs] at h
    cases hr : s.memRead a with
    | error g =>
      rw [hr] at h
      injection h with h1 h2
      subst h1
      obtain ⟨e1, e2, e3⟩ := State.memRead_error hr
      exact ⟨e1, 0, by simp, e2, e3⟩
    | ok v =>
      rw [hr] at h
      obtain ⟨h1, k, hk, h2, h3⟩ := ih h
      exact ⟨h1, k + 1, by simpa using hk, by omega, by rw [h3]; congr 1; omega⟩

/-! ### Flagged arithmetic and the draw -/

/-- ADD and SUB write VF and Vx and nothing else (rule R210). -/
theorem State.flaggedOp_frame (s : State) (flag res : Byte → Byte → Byte) (x y : Reg) :
    let t := s.flaggedOp flag res x y
    t = { s with regs := t.regs } ∧ ∀ q, q ≠ VF → q ≠ x → t.reg q = s.reg q := by
  unfold State.flaggedOp
  cases s.cfg.vfTiming with
  | snapshot =>
    exact ⟨rfl, fun q h1 h2 => by simp only [State.reg_setReg_other _ _ _ _ h2, State.reg_setReg_other _ _ _ _ h1]⟩
  | sequential =>
    exact ⟨rfl, fun q h1 h2 => by simp only [State.reg_setReg_other _ _ _ _ h2, State.reg_setReg_other _ _ _ _ h1]⟩

/-! ### Parts of a step -/

theorem decrement_eq (t : Byte) : decrement t = timerAfter t := by
  have h0 : (0 : Byte).toNat = 0 := rfl
  have h1 : (1 : Byte).toNat = 1 := rfl
  have ht := t.isLt
  apply BitVec.eq_of_toNat_eq
  simp only [decrement, timerAfter, BitVec.lt_def, h0]
  split
  · simp only [BitVec.toNat_sub, BitVec.toNat_ofNat, h1]
    omega
  · simp only [BitVec.toNat_ofNat]
    omega

theorem word_add_two (w : Word) : w + 2 = BitVec.ofNat 16 ((w.toNat + 2) % 65536) := by
  have h2 : (2 : Word).toNat = 2 := rfl
  apply BitVec.eq_of_toNat_eq
  simp only [BitVec.toNat_add, BitVec.toNat_ofNat, h2]
  omega

/-- The state the instruction starts from is the one the statements name. -/
theorem State.tick_advance (s : State) : s.tick.advance = s.begun := by
  show State.mk _ _ _ (s.pc + 2) _ (decrement s.dt) (decrement s.st) _ _ _ _ _ _ _ _ _ = _
  rw [decrement_eq, decrement_eq, word_add_two]; rfl

theorem State.tick_eq (s : State) : s.tick = { s with st := timerAfter s.st, dt := timerAfter s.dt } := by
  show State.mk _ _ _ _ _ (decrement s.dt) (decrement s.st) _ _ _ _ _ _ _ _ _ = _
  rw [decrement_eq, decrement_eq]; rfl

/-- A fetch in range answers the big-endian opcode (rules R71, R146). -/
theorem State.fetch_inRange {s : State} (h : s.Fetchable) : s.fetch = .ok s.opcode := by
  have h0 : s.InRange s.pc.toNat := by
    rcases h with h | h
    · exact .inl h
    · exact .inr (by omega)
  simp [State.fetch, State.memRead_inRange h0, State.memRead_inRange (s := s) (a := s.pc.toNat + 1) h, State.opcode, joinBytes]

/-- A fetch out of range raises for the first address of 4096 or more (rule R146). -/
theorem State.fetch_outOfRange {s : State} (h : ¬ s.Fetchable) :
    s.cfg.memOor = .fault ∧ s.fetch = .error (.addressOutOfRange (max s.pc.toNat 4096)) := by
  have hm : s.cfg.memOor = .fault := by
    cases hp : s.cfg.memOor with
    | wrap => exact absurd (.inl hp) h
    | fault => rfl
  refine ⟨hm, ?_⟩
  have hge : 4096 ≤ s.pc.toNat + 1 := by
    rcases Nat.lt_or_ge (s.pc.toNat + 1) 4096 with h' | h'
    · exact absurd (.inr h') h
    · exact h'
  have h1 : ¬ s.InRange (s.pc.toNat + 1) := h
  by_cases h0 : s.InRange s.pc.toNat
  · have : s.pc.toNat + 1 = 4096 := by
      rcases h0 with h0 | h0
      · simp [hm] at h0
      · omega
    have h2 : max s.pc.toNat 4096 = s.pc.toNat + 1 := by omega
    simp only [State.fetch, State.memRead_inRange h0, State.memRead_outOfRange h1, h2]
  · have h2 : max s.pc.toNat 4096 = s.pc.toNat := by
      have : ¬ s.pc.toNat < 4096 := fun h' => h0 (.inr h')
      omega
    simp only [State.fetch, State.memRead_outOfRange h0, h2]

/-- A step that is past the fault, wait and halt checks runs its instruction. -/
theorem step_active {s : State} (h : s.Active) : step s = runInstruction s := by
  obtain ⟨h1, h2, h3⟩ := h
  simp [step, cycle, h1, h2, h3]

end Sys2Proof.Machine
end

