-- ==== Sys2Proof/Laws/Draw.lean ====
section
/-! SUPPORT. What the blitter's loops can do: cells, VF and nothing else (rules R262 to R265). -/
namespace Sys2Proof.Machine

/-- Two states that agree but for the framebuffer and VF. -/
def State.DrawFrame (s t : State) : Prop :=
  t = { s with regs := t.regs, fb := t.fb } ∧ ∀ q, q ≠ VF → t.reg q = s.reg q

theorem State.DrawFrame.refl (s : State) : s.DrawFrame s := ⟨rfl, fun _ _ => rfl⟩

theorem State.DrawFrame.trans {s t u : State} (h : s.DrawFrame t) (k : t.DrawFrame u) : s.DrawFrame u :=
  ⟨by rw [k.1, h.1], fun q hq => by rw [k.2 q hq, h.2 q hq]⟩

/-! What a drawing leaves alone, field by field. -/

theorem State.DrawFrame.cfg {s t : State} (h : s.DrawFrame t) : t.cfg = s.cfg := by rw [h.1]
theorem State.DrawFrame.index {s t : State} (h : s.DrawFrame t) : t.index = s.index := by rw [h.1]
theorem State.DrawFrame.pc {s t : State} (h : s.DrawFrame t) : t.pc = s.pc := by rw [h.1]
theorem State.DrawFrame.stack {s t : State} (h : s.DrawFrame t) : t.stack = s.stack := by rw [h.1]
theorem State.DrawFrame.dt {s t : State} (h : s.DrawFrame t) : t.dt = s.dt := by rw [h.1]
theorem State.DrawFrame.st {s t : State} (h : s.DrawFrame t) : t.st = s.st := by rw [h.1]
theorem State.DrawFrame.mem {s t : State} (h : s.DrawFrame t) : t.mem = s.mem := by rw [h.1]
theorem State.DrawFrame.redraw {s t : State} (h : s.DrawFrame t) : t.redraw = s.redraw := by rw [h.1]
theorem State.DrawFrame.progEnd {s t : State} (h : s.DrawFrame t) : t.progEnd = s.progEnd := by rw [h.1]
theorem State.DrawFrame.await {s t : State} (h : s.DrawFrame t) : t.await = s.await := by rw [h.1]
theorem State.DrawFrame.fault {s t : State} (h : s.DrawFrame t) : t.fault = s.fault := by rw [h.1]
theorem State.DrawFrame.draws {s t : State} (h : s.DrawFrame t) : t.draws = s.draws := by rw [h.1]
theorem State.DrawFrame.keyInputs {s t : State} (h : s.DrawFrame t) : t.keyInputs = s.keyInputs := by rw [h.1]
theorem State.DrawFrame.status {s t : State} (h : s.DrawFrame t) : t.status = s.status := by rw [h.1]

theorem State.DrawFrame.byteAt {s t : State} (h : s.DrawFrame t) (a : Nat) : t.byteAt a = s.byteAt a := by
  rw [State.byteAt, h.cfg, h.mem, State.byteAt]

theorem State.flipCell_cell (s : State) (k j : Nat) (hk : k < 2048) :
    (s.flipCell k).cell j = if j = k then !s.cell k else s.cell j := by
  simp only [State.flipCell, State.cell, State.setFb_fb]
  by_cases h : j = k
  · subst h; simp [hk]
  · simp [h, Ne.symm h]

theorem State.noteCollision_frame (s : State) (k : Nat) : s.DrawFrame (s.noteCollision k) := by
  unfold State.noteCollision
  split
  · exact ⟨rfl, fun q hq => State.reg_setReg_other _ _ _ _ hq⟩
  · exact .refl s

theorem State.flipCell_frame (s : State) (k : Nat) : s.DrawFrame (s.flipCell k) := ⟨rfl, fun _ _ => rfl⟩

theorem drawCell_frame (x y : Reg) (o : Byte × Byte) (row : Nat) (b : Byte) (s : State) (col : Nat) :
    s.DrawFrame (drawCell x y o row b s col) := by
  unfold drawCell
  dsimp only
  split
  · exact .refl s
  · split
    · exact (s.noteCollision_frame _).trans (State.flipCell_frame _ _)
    · exact .refl s

theorem drawCells_frame (x y : Reg) (o : Byte × Byte) (row : Nat) (b : Byte) (cols : List Nat) (s : State) :
    s.DrawFrame (cols.foldl (drawCell x y o row b) s) := by
  induction cols generalizing s with
  | nil => exact .refl s
  | cons c cs ih => exact (drawCell_frame x y o row b s c).trans (ih _)

theorem drawRow_frame (x y : Reg) (o : Byte × Byte) (row : Nat) (b : Byte) (s : State) :
    s.DrawFrame (drawRow x y o row b s) := drawCells_frame x y o row b _ s

/-- Everything the rows can do, raised or not: cells and VF. -/
theorem drawRows_frame (x y : Reg) (o : Byte × Byte) (n row : Nat) (s : State) :
    s.DrawFrame (drawRows x y o n row s).reached := by
  induction n generalizing row s with
  | zero => exact .refl s
  | succ n ih =>
    simp only [drawRows]
    cases s.memRead (s.dataAddr + row) with
    | error r => exact .refl s
    | ok b => exact (drawRow_frame x y o row b s).trans (ih _ _)

/-- The rows raise only for a sprite address out of range. -/
theorem drawRows_raised {x y : Reg} {o : Byte × Byte} {n row : Nat} {s t : State} {r : Fault}
    (h : drawRows x y o n row s = .raised r t) :
    s.cfg.memOor = .fault ∧ ∃ k, k < n ∧ 4096 ≤ s.index.toNat + (row + k) ∧
      r = .addressOutOfRange (s.index.toNat + (row + k)) := by
  induction n generalizing row s with
  | zero => cases h
  | succ n ih =>
    simp only [drawRows] at h
    cases hr : s.memRead (s.dataAddr + row) with
    | error g =>
      rw [hr] at h
      injection h with h1 h2
      subst h1
      obtain ⟨e1, e2, e3⟩ := State.memRead_error hr
      have e : s.dataAddr + row = s.index.toNat + (row + 0) := rfl
      rw [e] at e2 e3
      exact ⟨e1, 0, Nat.succ_pos n, e2, e3⟩
    | ok b =>
      rw [hr] at h
      have hf := drawRow_frame x y o row b s
      obtain ⟨h1, k, hk, h2, h3⟩ := ih h
      rw [hf.cfg] at h1
      rw [hf.index] at h2 h3
      exact ⟨h1, k + 1, by omega, by omega, by rw [h3]; congr 1; omega⟩

/-! ### A draw as the sequence of its dots (rule R262) -/

/-- One dot of the sprite of `s₀`, numbered in the order of rule R262. -/
def drawDot (x y : Reg) (latched : Byte × Byte) (s₀ s : State) (k : Nat) : State :=
  drawCell x y latched (k / 8) (s₀.byteAt ((s₀.index.toNat + k / 8) % 4096)) s (k % 8)

theorem drawRow_dots (x y : Reg) (o : Byte × Byte) (row : Nat) (s₀ s : State) :
    drawRow x y o row (s₀.byteAt ((s₀.index.toNat + row) % 4096)) s =
      (List.range' (8 * row) 8).foldl (drawDot x y o s₀) s := by
  have h (j : Nat) (hj : j < 8) : (8 * row + j) / 8 = row ∧ (8 * row + j) % 8 = j := by omega
  rw [drawRow, List.range'_eq_map_range, List.foldl_map]
  apply List.foldl_ext
  intro t j hj
  obtain ⟨h1, h2⟩ := h j (List.mem_range.mp hj)
  rw [drawDot, h1, h2]

/-- With its rows readable a draw is the sequence of its dots. -/
theorem drawRows_dots (x y : Reg) (o : Byte × Byte) (s₀ : State) (n row : Nat) (s : State) (hs : s₀.DrawFrame s)
    (hr : s₀.RowsInRange (row + n)) :
    drawRows x y o n row s = .done ((List.range' (8 * row) (8 * n)).foldl (drawDot x y o s₀) s) := by
  induction n generalizing row s with
  | zero => rfl
  | succ n ih =>
    have h0 : s.InRange (s.index.toNat + row) := by
      rw [State.InRange, hs.cfg, hs.index]; exact hr row (by omega)
    have e : s.memRead (s.dataAddr + row) = .ok (s₀.byteAt ((s₀.index.toNat + row) % 4096)) := by
      rw [← hs.byteAt, ← hs.index]; exact State.memRead_inRange h0
    rw [drawRows, e]
    show drawRows x y o n (row + 1) _ = _
    rw [ih _ _ (hs.trans (drawRow_frame ..)) (by rwa [Nat.add_assoc, Nat.add_comm 1]), drawRow_dots,
      ← List.foldl_append, show 8 * (row + 1) = 8 * row + 8 by omega, List.range'_append_1,
      show 8 + 8 * n = 8 * (n + 1) by omega]

end Sys2Proof.Machine
end

