-- ==== Sys2Proof/Laws/Encoding.lean ====
section
/-! SUPPORT. Each format and the fields read back from it (rules R101, R102). -/
namespace Sys2Proof

@[simp] theorem regBits_toFin (r : Reg) : (regBits r).toFin = r := rfl

theorem field_toFin_eq {w : Word} {a : Nat} {b : Nib} (h : w.extractLsb' a 4 = b) :
    ((w.extractLsb' a 4).toFin : Reg) = b.toFin := by rw [h]

/-! Fields of format A. -/

@[simp] theorem fieldF_formatA (f : Nib) (a : Addr12) : fieldF (formatA f a) = f := by
  apply BitVec.eq_of_getLsbD_eq; intro i hi
  simp only [fieldF, formatA, BitVec.getLsbD_extractLsb', BitVec.getLsbD_append, hi, decide_true, Bool.true_and]
  rw [if_neg (by omega)]; congr 1; omega

@[simp] theorem fieldNNN_formatA (f : Nib) (a : Addr12) : fieldNNN (formatA f a) = a := by
  apply BitVec.eq_of_getLsbD_eq; intro i hi
  simp only [fieldNNN, formatA, BitVec.getLsbD_extractLsb', BitVec.getLsbD_append, hi, decide_true, Bool.true_and]
  rw [if_pos (by omega)]; congr 1; omega

/-! Fields of formats XB and XS. -/

@[simp] theorem fieldF_formatXB (f x : Nib) (b : Byte) : fieldF (formatXB f x b) = f := by
  apply BitVec.eq_of_getLsbD_eq; intro i hi
  simp only [fieldF, formatXB, BitVec.getLsbD_extractLsb', BitVec.getLsbD_append, hi, decide_true, Bool.true_and]
  rw [if_neg (by omega), if_neg (by omega)]; congr 1; omega

@[simp] theorem fieldZ_formatXB (f x : Nib) (b : Byte) : fieldZ (formatXB f x b) = x := by
  apply BitVec.eq_of_getLsbD_eq; intro i hi
  simp only [fieldZ, formatXB, BitVec.getLsbD_extractLsb', BitVec.getLsbD_append, hi, decide_true, Bool.true_and]
  rw [if_neg (by omega), if_pos (by omega)]; congr 1; omega

@[simp] theorem fieldNN_formatXB (f x : Nib) (b : Byte) : fieldNN (formatXB f x b) = b := by
  apply BitVec.eq_of_getLsbD_eq; intro i hi
  simp only [fieldNN, formatXB, BitVec.getLsbD_extractLsb', BitVec.getLsbD_append, hi, decide_true, Bool.true_and]
  rw [if_pos (by omega)]; congr 1; omega

/-! Fields of format XYN. -/

@[simp] theorem fieldF_formatXYN (f x y n : Nib) : fieldF (formatXYN f x y n) = f := by
  apply BitVec.eq_of_getLsbD_eq; intro i hi
  simp only [fieldF, formatXYN, BitVec.getLsbD_extractLsb', BitVec.getLsbD_append, hi, decide_true, Bool.true_and]
  rw [if_neg (by omega), if_neg (by omega), if_neg (by omega)]; congr 1; omega

@[simp] theorem fieldZ_formatXYN (f x y n : Nib) : fieldZ (formatXYN f x y n) = x := by
  apply BitVec.eq_of_getLsbD_eq; intro i hi
  simp only [fieldZ, formatXYN, BitVec.getLsbD_extractLsb', BitVec.getLsbD_append, hi, decide_true, Bool.true_and]
  rw [if_neg (by omega), if_neg (by omega), if_pos (by omega)]; congr 1; omega

@[simp] theorem fieldY_formatXYN (f x y n : Nib) : fieldY (formatXYN f x y n) = y.toFin := by
  apply field_toFin_eq
  apply BitVec.eq_of_getLsbD_eq; intro i hi
  simp only [formatXYN, BitVec.getLsbD_extractLsb', BitVec.getLsbD_append, hi, decide_true, Bool.true_and]
  rw [if_neg (by omega), if_pos (by omega)]; congr 1; omega

@[simp] theorem fieldN_formatXYN (f x y n : Nib) : fieldN (formatXYN f x y n) = n := by
  apply BitVec.eq_of_getLsbD_eq; intro i hi
  simp only [fieldN, formatXYN, BitVec.getLsbD_extractLsb', BitVec.getLsbD_append, hi, decide_true, Bool.true_and]
  rw [if_pos (by omega)]; congr 1; omega

/-! The X field is the Z field read as an index. -/

theorem fieldX_eq (op : Word) : fieldX op = (fieldZ op).toFin := rfl

@[simp] theorem fieldX_formatXB (f x : Nib) (b : Byte) : fieldX (formatXB f x b) = x.toFin := by
  rw [fieldX_eq, fieldZ_formatXB]

@[simp] theorem fieldX_formatXYN (f x y n : Nib) : fieldX (formatXYN f x y n) = x.toFin := by
  rw [fieldX_eq, fieldZ_formatXYN]

/-! Every word is its fields put together, in each of the formats. -/

theorem formatA_fields (w : Word) : formatA (fieldF w) (fieldNNN w) = w := by
  apply BitVec.eq_of_getLsbD_eq; intro i hi
  simp only [fieldF, fieldNNN, formatA, BitVec.getLsbD_extractLsb', BitVec.getLsbD_append]
  split
  · simp_all
  · have : 12 + (i - 12) = i := by omega
    simp [this]; omega

theorem formatXB_fields (w : Word) : formatXB (fieldF w) (fieldZ w) (fieldNN w) = w := by
  apply BitVec.eq_of_getLsbD_eq; intro i hi
  simp only [fieldF, fieldZ, fieldNN, formatXB, BitVec.getLsbD_extractLsb', BitVec.getLsbD_append]
  split
  · simp_all
  · split
    · have : 8 + (i - 8) = i := by omega
      simp [this]; omega
    · have : 12 + (i - 8 - 4) = i := by omega
      simp [this]; omega

theorem formatXYN_fields (w : Word) :
    formatXYN (fieldF w) (fieldZ w) (regBits (fieldY w)) (fieldN w) = w := by
  have hy : regBits (fieldY w) = w.extractLsb' 4 4 := rfl
  rw [hy]
  apply BitVec.eq_of_getLsbD_eq; intro i hi
  simp only [fieldF, fieldZ, fieldN, formatXYN, BitVec.getLsbD_extractLsb', BitVec.getLsbD_append]
  split
  · simp_all
  · split
    · have : 4 + (i - 4) = i := by omega
      simp [this]; omega
    · split
      · have : 8 + (i - 4 - 4) = i := by omega
        simp [this]; omega
      · have : 12 + (i - 4 - 4 - 4) = i := by omega
        simp [this]; omega

theorem regBits_fieldX (w : Word) : regBits (fieldX w) = fieldZ w := rfl

/-! The two bytes of a word in memory order, and back (rule R71). -/

@[simp] theorem joinBytes_wordBytes (w : Word) : joinBytes (w.extractLsb' 8 8) (w.extractLsb' 0 8) = w := by
  apply BitVec.eq_of_getLsbD_eq; intro i hi
  simp only [joinBytes, BitVec.getLsbD_extractLsb', BitVec.getLsbD_append]
  split
  · simp_all
  · have : 8 + (i - 8) = i := by omega
    simp [this]; omega

theorem decode_wordBytes (w : Word) (rest : List Byte) : decode (wordBytes w ++ rest) = .ok (decodeWord w, rest) := by
  simp [wordBytes, decode]

end Sys2Proof
end

