-- ==== Sys2Proof/Laws/Exec.lean ====
section
/-! SUPPORT. The transfers, the draw and the run in the form proofs use them. -/
namespace Sys2Proof.Machine

/-! ### The run -/

/-- A run of one more step goes on from what the first step answers. -/
theorem coreRun_succ (M : Host.Core) {s t : M.State} (h : M.step s = .next t) (n : Nat) :
    M.run (n + 1) s = M.run n t := by
  simp [Host.Core.run, h]

/-- The same in the model's own names. -/
theorem run_succ {s t : State} (h : step s = .next t) (n : Nat) :
    Host.Core.run core (n + 1) s = Host.Core.run core n t := coreRun_succ core h n

/-! ### The least pressed key (rule R298) -/

theorem leastKey_none {k : Keys} (h : ∀ j : Reg, k[j.val] = false) : leastKey k = none := by
  simp [leastKey, List.find?_eq_none, h]

theorem leastKey_some {k : Keys} {r : Reg} (h : k[r.val] = true) (h' : ∀ j : Reg, j < r → k[j.val] = false) :
    leastKey k = some r := by
  unfold leastKey
  rw [List.find?_eq_some_iff_getElem]
  refine ⟨h, r.val, by simp, by simp, ?_⟩
  intro j hj
  simp only [Bool.not_eq_eq_eq_not, Bool.not_true]
  simpa using h' ⟨j, by omega⟩ hj

/-! ### V0..Vx -/

@[simp] theorem regsUpTo_length (x : Reg) : (regsUpTo x).length = x.val + 1 := by
  simp [regsUpTo]

theorem regsUpTo_getElem (x : Reg) (k : Nat) (h : k < (regsUpTo x).length) :
    (regsUpTo x)[k] = ⟨k, by rw [regsUpTo_length] at h; omega⟩ := by
  simp [regsUpTo]

theorem mem_regsUpTo (x q : Reg) : q ∈ regsUpTo x ↔ q ≤ x := by
  rw [List.mem_iff_getElem]
  constructor
  · rintro ⟨k, hk, rfl⟩
    rw [regsUpTo_getElem, Fin.le_def]
    rw [regsUpTo_length] at hk
    show k ≤ x.val
    omega
  · intro h
    have hk : q.val < (regsUpTo x).length := by rw [regsUpTo_length]; exact Nat.lt_succ_of_le h
    exact ⟨q.val, hk, by rw [regsUpTo_getElem]⟩

/-! ### Everything a transfer can answer -/

/-- A storing transfer answers a state in which only memory, and the fault status if a write raised, have changed. -/
theorem writeBytes_answer (s : State) (a : Nat) (vs : List Byte) :
    ∃ t, (writeBytes s a vs).answer = .next t ∧ t = { s with mem := t.mem, fault := t.fault } ∧
      (∀ c, (∀ k, k < vs.length → c ≠ (a + k) % 4096) → t.byteAt c = s.byteAt c) ∧
      (Memory.wf s.cfg.glyphs s.mem → Memory.wf s.cfg.glyphs t.mem) ∧
      (s.cfg.fontWrites ≠ .write → ∀ c, c < 0x50 → t.byteAt c = s.byteAt c) ∧
      (t.fault = s.fault ∨ ∃ r, t.fault = some r ∧ t.FaultFits r ∧
        ∃ k, k < vs.length ∧ (r = .addressOutOfRange (a + k) ∨ r = .fontRegionWrite ((a + k) % 4096))) := by
  have h := writeBytes_reached vs s a
  cases hp : writeBytes s a vs with
  | done t =>
    rw [hp] at h
    obtain ⟨(h1 : t = { s with mem := t.mem }), h2, h3, h4⟩ := h
    exact ⟨t, rfl, by rw [show t.fault = s.fault from by rw [h1]]; exact h1, h2, h3, h4, .inl (by rw [h1])⟩
  | raised r t =>
    rw [hp] at h
    obtain ⟨(h1 : t = { s with mem := t.mem }), h2, h3, h4⟩ := h
    obtain ⟨f1, f2⟩ := writeBytes_raised hp
    refine ⟨t.raise r, rfl, ?_, h2, h3, h4, .inr ⟨r, rfl, ?_, f2⟩⟩
    · show State.mk _ _ _ _ _ _ _ _ _ _ _ _ _ _ _ _ = _
      rw [h1]; rfl
    · cases r <;> exact f1

/-- A loading transfer answers a state in which only the listed registers, and the fault status if a read raised, have
changed. -/
theorem readRegs_answer (s : State) (a : Nat) (rs : List Reg) :
    ∃ t, (readRegs s a rs).answer = .next t ∧ t = { s with regs := t.regs, fault := t.fault } ∧
      (∀ q, q ∉ rs → t.reg q = s.reg q) ∧
      (t.fault = s.fault ∨ ∃ k, k < rs.length ∧ s.cfg.memOor = .fault ∧ 4096 ≤ a + k ∧
        t.fault = some (.addressOutOfRange (a + k))) := by
  have h := readRegs_reached rs s a
  cases hp : readRegs s a rs with
  | done t =>
    rw [hp] at h
    obtain ⟨(h1 : t = { s with regs := t.regs }), h2⟩ := h
    exact ⟨t, rfl, by rw [show t.fault = s.fault from by rw [h1]]; exact h1, h2, .inl (by rw [h1])⟩
  | raised r t =>
    rw [hp] at h
    obtain ⟨(h1 : t = { s with regs := t.regs }), h2⟩ := h
    obtain ⟨f1, k, f2, f3, f4⟩ := readRegs_raised hp
    refine ⟨t.raise r, rfl, ?_, h2, .inr ⟨k, f2, f1, f3, congrArg some f4⟩⟩
    show State.mk _ _ _ _ _ _ _ _ _ _ _ _ _ _ _ _ = _
    rw [h1]; rfl

/-- A draw answers a state in which only VF, cells, the redraw flag, and the fault status if a sprite byte could not be
read, have changed. -/
theorem execDrw_answer (x y : Reg) (n : Nib) (s : State) :
    ∃ t, execDrw x y n s = .next t ∧
      t = { s with regs := t.regs, fb := t.fb, redraw := t.redraw, fault := t.fault } ∧
      (∀ q, q ≠ VF → t.reg q = s.reg q) ∧
      ((t.fault = s.fault ∧ t.redraw = true) ∨ (t.redraw = s.redraw ∧ ∃ k, k < n.toNat ∧ s.cfg.memOor = .fault ∧
        4096 ≤ s.index.toNat + k ∧ t.fault = some (.addressOutOfRange (s.index.toNat + k)))) := by
  have h := drawRows_frame x y (s.reg x, s.reg y) n.toNat 0 (s.setReg VF 0)
  unfold execDrw
  cases hp : drawRows x y (s.reg x, s.reg y) n.toNat 0 (s.setReg VF 0) with
  | done t =>
    rw [hp] at h
    obtain ⟨(h1 : t = { s.setReg VF 0 with regs := t.regs, fb := t.fb }), h2⟩ := h
    have hf : t.fault = s.fault := by rw [h1]; rfl
    refine ⟨t.setRedraw true, rfl, ?_, fun q hq => ?_, .inl ⟨hf, rfl⟩⟩
    · show State.mk _ _ _ _ _ _ _ _ _ _ _ _ _ _ _ _ = _
      rw [h1]; rfl
    · exact (h2 q hq).trans (State.reg_setReg_other _ _ _ _ hq)
  | raised r t =>
    rw [hp] at h
    obtain ⟨(h1 : t = { s.setReg VF 0 with regs := t.regs, fb := t.fb }), h2⟩ := h
    have hr : t.redraw = s.redraw := by rw [h1]; rfl
    obtain ⟨f1, k, f2, f3, f4⟩ := drawRows_raised hp
    have e : (s.setReg VF 0).index.toNat + (0 + k) = s.index.toNat + k := by rw [Nat.zero_add]; rfl
    rw [e] at f3 f4
    refine ⟨t.raise r, rfl, ?_, fun q hq => ?_, .inr ⟨hr, k, f2, f1, f3, congrArg some f4⟩⟩
    · show State.mk _ _ _ _ _ _ _ _ _ _ _ _ _ _ _ _ = _
      rw [h1]; rfl
    · exact (h2 q hq).trans (State.reg_setReg_other _ _ _ _ hq)

end Sys2Proof.Machine
end

