-- ==== Sys2Proof/Laws/PerInstr.lean ====
section
/-! SUPPORT. Facts about every instruction as syntax, one lemma per constructor. Family TableRow: the encoding lies in the row of opcode_table.json that the constructor stands for. -/
namespace Sys2Proof

theorem formatA_and (f f' : Nib) (a a' : Addr12) : formatA f a &&& formatA f' a' = formatA (f &&& f') (a &&& a') :=
  BitVec.and_append

theorem formatXB_and (f x f' x' : Nib) (b b' : Byte) :
    formatXB f x b &&& formatXB f' x' b' = formatXB (f &&& f') (x &&& x') (b &&& b') := by
  refine BitVec.and_append.trans ?_
  rw [BitVec.and_append]; rfl

theorem formatXYN_and (f x y n f' x' y' n' : Nib) :
    formatXYN f x y n &&& formatXYN f' x' y' n' = formatXYN (f &&& f') (x &&& x') (y &&& y') (n &&& n') := by
  refine BitVec.and_append.trans ?_
  rw [BitVec.and_append, BitVec.and_append]; rfl

theorem nib_and_ones (f : Nib) : f &&& 15#4 = f := BitVec.and_allOnes
theorem byte_and_ones (b : Byte) : b &&& 255#8 = b := BitVec.and_allOnes

theorem fits_formatA (f : Nib) (a : Addr12) (c : Bool) :
    OpcodeRow.fits ⟨0xF000, formatA f 0, c⟩ (formatA f a) = true := by
  have h : (0xF000 : Word) = formatA 0xF 0 := by decide
  simp only [OpcodeRow.fits, h, beq_iff_eq, formatA_and, BitVec.and_zero, BitVec.ofNat_eq_ofNat, nib_and_ones]

theorem fits_formatXB (f x : Nib) (b : Byte) (c : Bool) :
    OpcodeRow.fits ⟨0xF000, formatXB f 0 0, c⟩ (formatXB f x b) = true := by
  have h : (0xF000 : Word) = formatXB 0xF 0 0 := by decide
  simp only [OpcodeRow.fits, h, beq_iff_eq, formatXB_and, BitVec.and_zero, BitVec.ofNat_eq_ofNat, nib_and_ones]

theorem fits_formatXS (f x : Nib) (b : Byte) (c : Bool) :
    OpcodeRow.fits ⟨0xF0FF, formatXB f 0 b, c⟩ (formatXB f x b) = true := by
  have h : (0xF0FF : Word) = formatXB 0xF 0 0xFF := by decide
  simp only [OpcodeRow.fits, h, beq_iff_eq, formatXB_and, BitVec.and_zero, BitVec.ofNat_eq_ofNat, nib_and_ones, byte_and_ones]

theorem fits_formatXYZ (f x y z : Nib) (c : Bool) :
    OpcodeRow.fits ⟨0xF000, formatXYN f 0 0 0, c⟩ (formatXYN f x y z) = true := by
  have h : (0xF000 : Word) = formatXYN 0xF 0 0 0 := by decide
  simp only [OpcodeRow.fits, h, beq_iff_eq, formatXYN_and, BitVec.and_zero, BitVec.ofNat_eq_ofNat, nib_and_ones]

theorem fits_formatXYN (f x y n : Nib) (c : Bool) :
    OpcodeRow.fits ⟨0xF00F, formatXYN f 0 0 n, c⟩ (formatXYN f x y n) = true := by
  have h : (0xF00F : Word) = formatXYN 0xF 0 0 0xF := by decide
  simp only [OpcodeRow.fits, h, beq_iff_eq, formatXYN_and, BitVec.and_zero, BitVec.ofNat_eq_ofNat, nib_and_ones]

namespace Laws.TableRow

/-- The word an instruction encodes to fits the mask and match of its row (rule R106). -/
def Statement (i : Instr) : Prop := i.row.fits (encode i) = true

theorem cls (z : Nib) : Statement (.cls z) := fits_formatXS 0x0 z 0xE0 _
theorem ret (z : Nib) : Statement (.ret z) := fits_formatXS 0x0 z 0xEE _
theorem nop0 (z : Nib) (s : Byte) : Statement (.nop0 z s) := fits_formatXB 0x0 z s _
theorem jp (nnn : Addr12) : Statement (.jp nnn) := fits_formatA 0x1 nnn _
theorem call (nnn : Addr12) : Statement (.call nnn) := fits_formatA 0x2 nnn _
theorem seImm (x : Reg) (nn : Byte) : Statement (.seImm x nn) := fits_formatXB 0x3 (regBits x) nn _
theorem sneImm (x : Reg) (nn : Byte) : Statement (.sneImm x nn) := fits_formatXB 0x4 (regBits x) nn _
theorem seReg (x y : Reg) (z : Nib) : Statement (.seReg x y z) := fits_formatXYZ 0x5 (regBits x) (regBits y) z _
theorem ldImm (x : Reg) (nn : Byte) : Statement (.ldImm x nn) := fits_formatXB 0x6 (regBits x) nn _
theorem addImm (x : Reg) (nn : Byte) : Statement (.addImm x nn) := fits_formatXB 0x7 (regBits x) nn _
theorem ldReg (x y : Reg) : Statement (.ldReg x y) := fits_formatXYN 0x8 (regBits x) (regBits y) 0x0 _
theorem orReg (x y : Reg) : Statement (.orReg x y) := fits_formatXYN 0x8 (regBits x) (regBits y) 0x1 _
theorem andReg (x y : Reg) : Statement (.andReg x y) := fits_formatXYN 0x8 (regBits x) (regBits y) 0x2 _
theorem xorReg (x y : Reg) : Statement (.xorReg x y) := fits_formatXYN 0x8 (regBits x) (regBits y) 0x3 _
theorem addReg (x y : Reg) : Statement (.addReg x y) := fits_formatXYN 0x8 (regBits x) (regBits y) 0x4 _
theorem subReg (x y : Reg) : Statement (.subReg x y) := fits_formatXYN 0x8 (regBits x) (regBits y) 0x5 _
theorem nop8n6 (x y : Reg) : Statement (.nop8n6 x y) := fits_formatXYN 0x8 (regBits x) (regBits y) 0x6 _
theorem nop8n7 (x y : Reg) : Statement (.nop8n7 x y) := fits_formatXYN 0x8 (regBits x) (regBits y) 0x7 _
theorem nop8n8 (x y : Reg) : Statement (.nop8n8 x y) := fits_formatXYN 0x8 (regBits x) (regBits y) 0x8 _
theorem nop8n9 (x y : Reg) : Statement (.nop8n9 x y) := fits_formatXYN 0x8 (regBits x) (regBits y) 0x9 _
theorem nop8nA (x y : Reg) : Statement (.nop8nA x y) := fits_formatXYN 0x8 (regBits x) (regBits y) 0xA _
theorem nop8nB (x y : Reg) : Statement (.nop8nB x y) := fits_formatXYN 0x8 (regBits x) (regBits y) 0xB _
theorem nop8nC (x y : Reg) : Statement (.nop8nC x y) := fits_formatXYN 0x8 (regBits x) (regBits y) 0xC _
theorem nop8nD (x y : Reg) : Statement (.nop8nD x y) := fits_formatXYN 0x8 (regBits x) (regBits y) 0xD _
theorem nop8nE (x y : Reg) : Statement (.nop8nE x y) := fits_formatXYN 0x8 (regBits x) (regBits y) 0xE _
theorem nop8nF (x y : Reg) : Statement (.nop8nF x y) := fits_formatXYN 0x8 (regBits x) (regBits y) 0xF _
theorem sneReg (x y : Reg) (z : Nib) : Statement (.sneReg x y z) := fits_formatXYZ 0x9 (regBits x) (regBits y) z _
theorem ldI (nnn : Addr12) : Statement (.ldI nnn) := fits_formatA 0xA nnn _
theorem jpV0 (nnn : Addr12) : Statement (.jpV0 nnn) := fits_formatA 0xB nnn _
theorem rnd (x : Reg) (nn : Byte) : Statement (.rnd x nn) := fits_formatXB 0xC (regBits x) nn _
theorem drw (x y : Reg) (n : Nib) : Statement (.drw x y n) := fits_formatXYZ 0xD (regBits x) (regBits y) n _
theorem skp (x : Reg) : Statement (.skp x) := fits_formatXS 0xE (regBits x) 0x9E _
theorem sknp (x : Reg) : Statement (.sknp x) := fits_formatXS 0xE (regBits x) 0xA1 _
theorem nopE (x : Reg) (s : Byte) : Statement (.nopE x s) := fits_formatXB 0xE (regBits x) s _
theorem ldVxDt (x : Reg) : Statement (.ldVxDt x) := fits_formatXS 0xF (regBits x) 0x07 _
theorem ldVxK (x : Reg) : Statement (.ldVxK x) := fits_formatXS 0xF (regBits x) 0x0A _
theorem ldDtVx (x : Reg) : Statement (.ldDtVx x) := fits_formatXS 0xF (regBits x) 0x15 _
theorem ldStVx (x : Reg) : Statement (.ldStVx x) := fits_formatXS 0xF (regBits x) 0x18 _
theorem addI (x : Reg) : Statement (.addI x) := fits_formatXS 0xF (regBits x) 0x1E _
theorem ldF (x : Reg) : Statement (.ldF x) := fits_formatXS 0xF (regBits x) 0x29 _
theorem ldB (x : Reg) : Statement (.ldB x) := fits_formatXS 0xF (regBits x) 0x33 _
theorem storeRegs (x : Reg) : Statement (.storeRegs x) := fits_formatXS 0xF (regBits x) 0x55 _
theorem loadRegs (x : Reg) : Statement (.loadRegs x) := fits_formatXS 0xF (regBits x) 0x65 _
theorem nopF (x : Reg) (s : Byte) : Statement (.nopF x s) := fits_formatXB 0xF (regBits x) s _

end Laws.TableRow

end Sys2Proof
end

