-- ==== Sys2Proof/Machine/Listing.lean ====
section
/-! DEFINITION. The assembler syntax of rule R109, as the text a disassembler prints for each instruction. -/
namespace Sys2Proof.Machine

/-- One hexadecimal digit. -/
def hexDigit (n : Nat) : Char := Char.ofNat (if n < 10 then 48 + n else 55 + n)

/-- The `k` low hexadecimal digits of a number, most significant first. -/
def hexDigits : Nat → Nat → List Char
  | 0, _ => []
  | k + 1, n => hexDigits k (n / 16) ++ [hexDigit (n % 16)]

/-- A number written in hex with `0x`. -/
def hexText (k n : Nat) : String := "0x" ++ String.ofList (hexDigits k n)

/-- `V0`..`VF`. -/
def regText (r : Reg) : String := "V" ++ String.ofList [hexDigit r.val]

/-- The operation with the word itself as its operand, for a word rule R109 prints raw. -/
def rawText (m : String) (i : Instr) : String := m ++ " " ++ hexText 4 (encode i).toNat

/-- A word whose unread bits are not zero is placed raw, so that the listing reassembles to the same bytes; the mnemonic
follows in a comment, whose `;` is the model's choice (assumption 21). -/
def unreadText (z : Nib) (i : Instr) (t : String) : String :=
  if z = 0 then t else rawText ".word" i ++ " ; " ++ t

/-- An operation of one operand. -/
def text1 (m a : String) : String := m ++ " " ++ a

/-- An operation of two operands. -/
def text2 (m a b : String) : String := m ++ " " ++ a ++ ", " ++ b

/-- The line rule R109 gives each instruction. -/
def listing : Instr → String
  | .cls z => unreadText z (.cls z) "CLS"
  | .ret z => unreadText z (.ret z) "RET"
  | .nop0 z s => rawText "NOP0" (.nop0 z s)
  | .jp nnn => text1 "JP" (hexText 3 nnn.toNat)
  | .call nnn => text1 "CALL" (hexText 3 nnn.toNat)
  | .seImm x nn => text2 "SE" (regText x) (hexText 2 nn.toNat)
  | .sneImm x nn => text2 "SNE" (regText x) (hexText 2 nn.toNat)
  | .seReg x y z => unreadText z (.seReg x y z) (text2 "SE" (regText x) (regText y))
  | .ldImm x nn => text2 "LD" (regText x) (hexText 2 nn.toNat)
  | .addImm x nn => text2 "ADD" (regText x) (hexText 2 nn.toNat)
  | .ldReg x y => text2 "LD" (regText x) (regText y)
  | .orReg x y => text2 "OR" (regText x) (regText y)
  | .andReg x y => text2 "AND" (regText x) (regText y)
  | .xorReg x y => text2 "XOR" (regText x) (regText y)
  | .addReg x y => text2 "ADD" (regText x) (regText y)
  | .subReg x y => text2 "SUB" (regText x) (regText y)
  | .nop8n6 x y => rawText "NOP8" (.nop8n6 x y)
  | .nop8n7 x y => rawText "NOP8" (.nop8n7 x y)
  | .nop8n8 x y => rawText "NOP8" (.nop8n8 x y)
  | .nop8n9 x y => rawText "NOP8" (.nop8n9 x y)
  | .nop8nA x y => rawText "NOP8" (.nop8nA x y)
  | .nop8nB x y => rawText "NOP8" (.nop8nB x y)
  | .nop8nC x y => rawText "NOP8" (.nop8nC x y)
  | .nop8nD x y => rawText "NOP8" (.nop8nD x y)
  | .nop8nE x y => rawText "NOP8" (.nop8nE x y)
  | .nop8nF x y => rawText "NOP8" (.nop8nF x y)
  | .sneReg x y z => unreadText z (.sneReg x y z) (text2 "SNE" (regText x) (regText y))
  | .ldI nnn => text2 "LD" "I" (hexText 3 nnn.toNat)
  | .jpV0 nnn => text2 "JP" "V0" (hexText 3 nnn.toNat)
  | .rnd x nn => text2 "RND" (regText x) (hexText 2 nn.toNat)
  | .drw x y n => text2 "DRW" (regText x) (regText y) ++ ", " ++ hexText 1 n.toNat
  | .skp x => text1 "SKP" (regText x)
  | .sknp x => text1 "SKNP" (regText x)
  | .nopE x s => rawText "NOPE" (.nopE x s)
  | .ldVxDt x => text2 "LD" (regText x) "DT"
  | .ldVxK x => text2 "LD" (regText x) "K"
  | .ldDtVx x => text2 "LD" "DT" (regText x)
  | .ldStVx x => text2 "LD" "ST" (regText x)
  | .addI x => text2 "ADD" "I" (regText x)
  | .ldF x => text2 "LD" "F" (regText x)
  | .ldB x => text2 "LD" "B" (regText x)
  | .storeRegs x => text2 "LD" "[I]" (regText x)
  | .loadRegs x => text2 "LD" (regText x) "[I]"
  | .nopF x s => rawText "NOPF" (.nopF x s)

end Sys2Proof.Machine
end

