-- ==== Sys2Proof/Tests/Slice0.lean ====
section
/-! SUPPORT. The model's own tests, their results from the spec's test vectors (95_test_vectors.md, named V-… and W…) or from its rules, and a witness for the hypotheses of every statement. -/
namespace Sys2Proof.Tests
open Sys2Proof Sys2Proof.Machine

/-! ### Helpers -/

/-- A next state with the property. -/
def nextHas (o : Result) (p : State → Bool) : Bool :=
  match o with
  | .next s => p s
  | .fault _ => false
  | .refused _ => false

/-- The state after Initialize with some registers set. -/
def withRegs (l : List (Reg × Byte)) : State := l.foldl (fun s p => s.setReg p.1 p.2) State.reset

/-- The same with I set. -/
def withIndex (l : List (Reg × Byte)) (i : Word) : State := (withRegs l).setIndex i

/-- The same with bytes of memory listed. -/
def withMem (s : State) (m : Memory) : State := s.setMem m

/-- The parameters of a state replaced. -/
def withCfg (s : State) (p : Config.Params) : State := { s with cfg := p }

def sequentialParams : Config.Params := { defaultParams with vfTiming := .sequential }
def memFaultParams : Config.Params := { defaultParams with memOor := .fault }
def fontFaultParams : Config.Params := { defaultParams with fontWrites := .fault }
def keyFaultParams : Config.Params := { defaultParams with keyOor := .fault }
def oneEntryParams : Config.Params := { defaultParams with stackCapacity := .bounded 1 }

/-- The next step's opcode is `op` and its key vector has exactly the listed keys pressed; nothing else is changed. -/
def stepOf (s : State) (op : Nat) (keys : List Reg) (p : State → Bool) : Bool :=
  nextHas ((s.withFetchWord 16 op).hostStep (Vector.ofFn (fun k => keys.contains k))) p

/-- One step with no key pressed. -/
def runs (s : State) (op : Nat) (p : State → Bool) : Bool := stepOf s op [] p

/-! ### WellFormed: a default row with a function byte its family assigns is refused -/

theorem test_wf_nop0_E0 : (Instr.nop0 3 0xE0).wellFormed = false := by decide
theorem test_wf_nop0_EE : (Instr.nop0 3 0xEE).wellFormed = false := by decide
theorem test_wf_nopE_9E : (Instr.nopE 3 0x9E).wellFormed = false := by decide
theorem test_wf_nopE_A1 : (Instr.nopE 3 0xA1).wellFormed = false := by decide
theorem test_wf_nopF : familyFBytes.all (fun b => !(Instr.nopF 3 b).wellFormed) = true := by decide
theorem test_wf_accepts : ((Instr.nop0 0 0x00).wellFormed && (Instr.nopE 3 0x9F).wellFormed && (Instr.nopF 1 0x30).wellFormed) = true := by decide

/-! ### Decoding: words written out from the encodings of rule R102 and the table, one for every constructor -/

theorem test_decode_cls : decodeTableWord 16 0b0000000011100000 = some (.cls 0) := by decide
theorem test_decode_cls_unread : decodeTableWord 16 0b0000101011100000 = some (.cls 0xA) := by decide
theorem test_decode_ret : decodeTableWord 16 0b0000001111101110 = some (.ret 3) := by decide
theorem test_decode_nop0 : decodeTableWord 16 0b0000000100100011 = some (.nop0 1 0x23) := by decide
theorem test_decode_jp : decodeTableWord 16 0b0001001000110100 = some (.jp 0x234) := by decide
theorem test_decode_call : decodeTableWord 16 0b0010001100000000 = some (.call 0x300) := by decide
theorem test_decode_seImm : decodeTableWord 16 0b0011001100010000 = some (.seImm 3 0x10) := by decide
theorem test_decode_sneImm : decodeTableWord 16 0b0100001100010001 = some (.sneImm 3 0x11) := by decide
theorem test_decode_seReg : decodeTableWord 16 0b0101000100100001 = some (.seReg 1 2 1) := by decide
theorem test_decode_ldImm : decodeTableWord 16 0b0110101000000101 = some (.ldImm 0xA 5) := by decide
theorem test_decode_addImm : decodeTableWord 16 0b0111000100000011 = some (.addImm 1 3) := by decide
theorem test_decode_ldReg : decodeTableWord 16 0b1000000100100000 = some (.ldReg 1 2) := by decide
theorem test_decode_orReg : decodeTableWord 16 0b1000000100100001 = some (.orReg 1 2) := by decide
theorem test_decode_andReg : decodeTableWord 16 0b1000000100100010 = some (.andReg 1 2) := by decide
theorem test_decode_xorReg : decodeTableWord 16 0b1000000100100011 = some (.xorReg 1 2) := by decide
theorem test_decode_addReg : decodeTableWord 16 0b1000000100100100 = some (.addReg 1 2) := by decide
theorem test_decode_subReg : decodeTableWord 16 0b1000000100100101 = some (.subReg 1 2) := by decide
theorem test_decode_nop8n6 : decodeTableWord 16 0b1000000100100110 = some (.nop8n6 1 2) := by decide
theorem test_decode_nop8n7 : decodeTableWord 16 0b1000000100100111 = some (.nop8n7 1 2) := by decide
theorem test_decode_nop8n8 : decodeTableWord 16 0b1000000100101000 = some (.nop8n8 1 2) := by decide
theorem test_decode_nop8n9 : decodeTableWord 16 0b1000000100101001 = some (.nop8n9 1 2) := by decide
theorem test_decode_nop8nA : decodeTableWord 16 0b1000000100101010 = some (.nop8nA 1 2) := by decide
theorem test_decode_nop8nB : decodeTableWord 16 0b1000000100101011 = some (.nop8nB 1 2) := by decide
theorem test_decode_nop8nC : decodeTableWord 16 0b1000000100101100 = some (.nop8nC 1 2) := by decide
theorem test_decode_nop8nD : decodeTableWord 16 0b1000000100101101 = some (.nop8nD 1 2) := by decide
theorem test_decode_nop8nE : decodeTableWord 16 0b1000000100101110 = some (.nop8nE 1 2) := by decide
theorem test_decode_nop8nF : decodeTableWord 16 0b1000000100101111 = some (.nop8nF 1 2) := by decide
theorem test_decode_sneReg : decodeTableWord 16 0b1001000100101111 = some (.sneReg 1 2 0xF) := by decide
theorem test_decode_ldI : decodeTableWord 16 0b1010001011110000 = some (.ldI 0x2F0) := by decide
theorem test_decode_jpV0 : decodeTableWord 16 0b1011010111111111 = some (.jpV0 0x5FF) := by decide
theorem test_decode_rnd : decodeTableWord 16 0b1100001100001111 = some (.rnd 3 0x0F) := by decide
theorem test_decode_drw : decodeTableWord 16 0b1101101010110101 = some (.drw 0xA 0xB 5) := by decide
theorem test_decode_skp : decodeTableWord 16 0b1110010010011110 = some (.skp 4) := by decide
theorem test_decode_sknp : decodeTableWord 16 0b1110010010100001 = some (.sknp 4) := by decide
theorem test_decode_nopE : decodeTableWord 16 0b1110010010011111 = some (.nopE 4 0x9F) := by decide
theorem test_decode_ldVxDt : decodeTableWord 16 0b1111000100000111 = some (.ldVxDt 1) := by decide
theorem test_decode_ldVxK : decodeTableWord 16 0b1111001000001010 = some (.ldVxK 2) := by decide
theorem test_decode_ldDtVx : decodeTableWord 16 0b1111000000010101 = some (.ldDtVx 0) := by decide
theorem test_decode_ldStVx : decodeTableWord 16 0b1111001000011000 = some (.ldStVx 2) := by decide
theorem test_decode_addI : decodeTableWord 16 0b1111000100011110 = some (.addI 1) := by decide
theorem test_decode_ldF : decodeTableWord 16 0b1111101000101001 = some (.ldF 0xA) := by decide
theorem test_decode_ldB : decodeTableWord 16 0b1111010100110011 = some (.ldB 5) := by decide
theorem test_decode_storeRegs : decodeTableWord 16 0b1111001001010101 = some (.storeRegs 2) := by decide
theorem test_decode_loadRegs : decodeTableWord 16 0b1111001001100101 = some (.loadRegs 2) := by decide
theorem test_decode_nopF : decodeTableWord 16 0b1111000100110000 = some (.nopF 1 0x30) := by decide
theorem test_decode_truncated : decode [0x12] = .error .truncated := by decide
theorem test_decode_rest : decode [0x12, 0x34, 0x56] = .ok (.jp 0x234, [0x56]) := by decide

/-! ### Single steps -/

/-- V-CLS-1. -/
theorem test_cls_clears : runs (((withRegs [(15, 0x55)]).flipCell 0).flipCell 65) 0x00E0 (fun t => !t.cell 0 && !t.cell 65 && t.redraw && t.reg 15 == 0x55 && t.pc == 0x202) = true := by decide +kernel
/-- V-RET-1. -/
theorem test_ret_pops : runs ((State.reset.setStack [0x206, 0x300]).setPc 0x20C) 0x00EE (fun t => t.pc == 0x206 && t.stack == [0x300]) = true := by decide
/-- V-RET-2. -/
theorem test_ret_underflow : runs (State.reset.setDt 5) 0x00EE (fun t => t.fault == some .stackUnderflow && t.status == .fault .stackUnderflow && t.dt == 4 && t.pc == 0x202) = true := by decide
/-- V-NOP0-2. -/
theorem test_nop0 : runs (State.reset.setDt 2) 0x0123 (fun t => t.pc == 0x202 && t.dt == 1 && t.regs == State.reset.regs) = true := by decide
/-- V-JP-1. -/
theorem test_jp : runs (State.reset) 0x1234 (fun t => t.pc == 0x234) = true := by decide
/-- V-CALL-1. -/
theorem test_call : runs (State.reset) 0x2300 (fun t => t.stack == [0x202] && t.pc == 0x300) = true := by decide
/-- V-CALL-2. -/
theorem test_call_overflow : runs ((withCfg State.reset oneEntryParams).setStack [0x202]) 0x2400 (fun t => t.fault == some .stackOverflow && t.stack == [0x202] && t.pc == 0x202) = true := by decide
/-- V-SE-1. -/
theorem test_seImm_taken : runs (withRegs [(3, 0x10)]) 0x3310 (fun t => t.pc == 0x204) = true := by decide
/-- V-SE-2. -/
theorem test_seImm_not_taken : runs (withRegs [(3, 0x10)]) 0x3311 (fun t => t.pc == 0x202) = true := by decide
/-- V-SNE-1. -/
theorem test_sneImm_taken : runs (withRegs [(3, 0x10)]) 0x4311 (fun t => t.pc == 0x204) = true := by decide
/-- V-SNE-2. -/
theorem test_sneImm_not_taken : runs (withRegs [(3, 0x10)]) 0x4310 (fun t => t.pc == 0x202) = true := by decide
/-- V-SER-1. -/
theorem test_seReg_taken : runs (withRegs [(1, 7), (2, 7)]) 0x5120 (fun t => t.pc == 0x204) = true := by decide
/-- V-SER-2. -/
theorem test_seReg_not_taken : runs (withRegs [(1, 7), (2, 8)]) 0x512F (fun t => t.pc == 0x202) = true := by decide
/-- V-SNER-1. -/
theorem test_sneReg_taken : runs (withRegs [(1, 7), (2, 8)]) 0x9120 (fun t => t.pc == 0x204) = true := by decide
/-- V-SNER-2. -/
theorem test_sneReg_not_taken : runs (withRegs [(5, 9)]) 0x9550 (fun t => t.pc == 0x202) = true := by decide
/-- V-JPV0-2. -/
theorem test_jpV0_carries : runs (withRegs [(0, 0xFF)]) 0xBFFF (fun t => t.pc == 0x10FE) = true := by decide
/-- V-JPV0-4. -/
theorem test_jpV0_ignores_x : runs (withRegs [(0, 0x01), (5, 0x40)]) 0xB5FF (fun t => t.pc == 0x600) = true := by decide
/-- V-LD-1. -/
theorem test_ldImm : runs (State.reset) 0x6A05 (fun t => t.reg 0xA == 5) = true := by decide
/-- V-ADDI-1. -/
theorem test_addImm_wraps : runs (withRegs [(1, 0xFE), (15, 0x55)]) 0x7103 (fun t => t.reg 1 == 1 && t.reg 15 == 0x55) = true := by decide
/-- V-LDR-1. -/
theorem test_ldReg : runs (withRegs [(2, 0x33)]) 0x8120 (fun t => t.reg 1 == 0x33 && t.reg 2 == 0x33) = true := by decide
/-- V-OR-1. -/
theorem test_orReg : runs (withRegs [(1, 0x0F), (2, 0xF0), (15, 0x55)]) 0x8121 (fun t => t.reg 1 == 0xFF && t.reg 15 == 0x55) = true := by decide
/-- V-AND-1. -/
theorem test_andReg : runs (withRegs [(1, 0x3C), (2, 0x0F)]) 0x8122 (fun t => t.reg 1 == 0x0C) = true := by decide
/-- V-XOR-1. -/
theorem test_xorReg : runs (withRegs [(1, 0xFF), (2, 0x0F)]) 0x8123 (fun t => t.reg 1 == 0xF0) = true := by decide
/-- V-ADD-4. -/
theorem test_addReg_carry : runs (withRegs [(1, 0xF0), (2, 0x20)]) 0x8124 (fun t => t.reg 1 == 0x10 && t.reg 15 == 1) = true := by decide
/-- V-ADD-YF-q. -/
theorem test_addReg_vf_sequential : runs (withCfg (withRegs [(1, 0x01), (15, 0xFF)]) sequentialParams) 0x81F4 (fun t => t.reg 1 == 0x02 && t.reg 15 == 1) = true := by decide
/-- V-SUB-1. -/
theorem test_subReg_borrow : runs (withRegs [(1, 0x10), (2, 0x20)]) 0x8125 (fun t => t.reg 1 == 0xF0 && t.reg 15 == 0) = true := by decide
/-- V-SUB-XF-s. -/
theorem test_subReg_vf_snapshot : runs (withRegs [(1, 0x03), (15, 0x05)]) 0x8F15 (fun t => t.reg 15 == 0x02) = true := by decide
/-- V-RND-1. -/
theorem test_rnd_counts_its_draw : runs (withRegs [(3, 0x77)]) 0xC300 (fun t => t.draws == 1 && t.pc == 0x202) = true := by decide
/-- V-LDI-1. -/
theorem test_ldI : runs (State.reset) 0xA2F0 (fun t => t.index == 0x2F0) = true := by decide
/-- V-ADDI-I-2. -/
theorem test_addI_wraps : runs (withIndex [(1, 0x01)] 0xFFFF) 0xF11E (fun t => t.index == 0) = true := by decide
/-- V-ADDI-I-1. -/
theorem test_addI_passes_memory : runs (withIndex [(1, 0x02), (15, 9)] 0x0FFF) 0xF11E (fun t => t.index == 0x1001 && t.reg 15 == 9) = true := by decide
/-- V-FX29. -/
theorem test_ldF_letter : runs (withRegs [(2, 0x66)]) 0xF229 (fun t => t.index == 75) = true := by decide
/-- V-FX29. -/
theorem test_ldF_not_a_digit : runs (withRegs [(10, 0x05)]) 0xFA29 (fun t => t.index == 0) = true := by decide
/-- V-FX33-1. -/
theorem test_ldB : runs (withIndex [(5, 123)] 0x300) 0xF533 (fun t => t.byteAt 0x300 == 0x31 && t.byteAt 0x301 == 0x32 && t.byteAt 0x302 == 0x33 && t.index == 0x300) = true := by decide
/-- V-FX33-7. -/
theorem test_ldB_discards_below_050 : runs (withIndex [(5, 123)] 0x04E) 0xF533 (fun t => t.byteAt 0x04E == 0x80 && t.byteAt 0x04F == 0x80 && t.byteAt 0x050 == 0x33) = true := by decide
/-- V-FX55-1. -/
theorem test_storeRegs : runs (withIndex [(0, 1), (1, 2), (2, 3), (3, 9)] 0x300) 0xF255 (fun t => t.byteAt 0x300 == 1 && t.byteAt 0x301 == 2 && t.byteAt 0x302 == 3 && t.byteAt 0x303 == 0) = true := by decide
/-- V-FX55-4. -/
theorem test_storeRegs_raises : runs (withCfg (withIndex [(0, 0xAA), (1, 0xBB)] 0x0FFF) memFaultParams) 0xF155 (fun t => t.byteAt 0xFFF == 0xAA && t.fault == some (.addressOutOfRange 0x1000)) = true := by decide
/-- V-FX65-1. -/
theorem test_loadRegs : runs ((withIndex [(3, 9)] 0x300).setMem [(0x300, 0x31), (0x301, 0x32), (0x302, 0x33), (0x303, 0x34)]) 0xF265 (fun t => t.reg 0 == 0x31 && t.reg 1 == 0x32 && t.reg 2 == 0x33 && t.reg 3 == 9 && t.index == 0x300) = true := by decide
/-- V-FX65-3. -/
theorem test_loadRegs_glyph : runs (withIndex [] 0) 0xF465 (fun t => t.reg 0 == 0xF0 && t.reg 1 == 0x90 && t.reg 4 == 0xF0 && t.reg 5 == 0) = true := by decide
/-- V-DRW-CLIPX, first row. -/
theorem test_drw_clips_right : runs (withIndex [(0, 60)] 0) 0xD011 (fun t => t.cell 60 && t.cell 63 && !t.cell 0 && !t.cell 64 && t.reg 15 == 0 && t.redraw) = true := by decide +kernel
/-- V-DRW-WRAPX. -/
theorem test_drw_wraps_origin : runs ((withIndex [(0, 250)] 0x300).setMem [(0x300, 0xFF)]) 0xD011 (fun t => t.cell 0 && t.cell 1 && !t.cell 2 && !t.cell 63) = true := by decide +kernel
/-- V-SKP-OOR-f. -/
theorem test_skp_pressed_out_of_range : runs (withCfg (withRegs [(4, 16)]) keyFaultParams) 0xE49E (fun t => t.fault == some (.keyIndexOutOfRange 16) && t.pc == 0x202) = true := by decide
/-- V-SKNP-OOR. -/
theorem test_sknp_out_of_range : runs (withRegs [(4, 0xFF)]) 0xE4A1 (fun t => t.pc == 0x204) = true := by decide
/-- V-NOPE. -/
theorem test_nopE : runs (withRegs [(1, 16)]) 0xE19F (fun t => t.pc == 0x202 && t.fault == none) = true := by decide
/-- V-FX07-1. -/
theorem test_ldVxDt_after_decrement : runs (State.reset.setDt 0x3C) 0xF107 (fun t => t.dt == 0x3B && t.reg 1 == 0x3B) = true := by decide
/-- V-FX15-1. -/
theorem test_ldDtVx : runs ((withRegs [(0, 3)]).setDt 9) 0xF015 (fun t => t.dt == 3) = true := by decide
/-- V-FX18-1. -/
theorem test_ldStVx : runs (withRegs [(2, 10)]) 0xF218 (fun t => t.st == 10) = true := by decide
/-- V-NOPF. -/
theorem test_nopF : runs (withRegs [(1, 5)]) 0xF130 (fun t => t.pc == 0x202 && t.reg 1 == 5) = true := by decide
/-- V-NOP8-1 and V-NOP8-2. -/
theorem test_nop8n6 : runs (withRegs [(1, 0x81), (2, 0x03), (15, 0x55)]) 0x8126 (fun t => t.pc == 0x202 && t.reg 1 == 0x81 && t.reg 15 == 0x55) = true := by decide
/-- V-NOP8-1 and V-NOP8-2. -/
theorem test_nop8n7 : runs (withRegs [(1, 0x81), (2, 0x03), (15, 0x55)]) 0x8127 (fun t => t.pc == 0x202 && t.reg 1 == 0x81 && t.reg 15 == 0x55) = true := by decide
/-- V-NOP8-1 and V-NOP8-2. -/
theorem test_nop8n8 : runs (withRegs [(1, 0x81), (2, 0x03), (15, 0x55)]) 0x8128 (fun t => t.pc == 0x202 && t.reg 1 == 0x81 && t.reg 15 == 0x55) = true := by decide
/-- V-NOP8-1 and V-NOP8-2. -/
theorem test_nop8n9 : runs (withRegs [(1, 0x81), (2, 0x03), (15, 0x55)]) 0x8129 (fun t => t.pc == 0x202 && t.reg 1 == 0x81 && t.reg 15 == 0x55) = true := by decide
/-- V-NOP8-1 and V-NOP8-2. -/
theorem test_nop8nA : runs (withRegs [(1, 0x81), (2, 0x03), (15, 0x55)]) 0x812A (fun t => t.pc == 0x202 && t.reg 1 == 0x81 && t.reg 15 == 0x55) = true := by decide
/-- V-NOP8-1 and V-NOP8-2. -/
theorem test_nop8nB : runs (withRegs [(1, 0x81), (2, 0x03), (15, 0x55)]) 0x812B (fun t => t.pc == 0x202 && t.reg 1 == 0x81 && t.reg 15 == 0x55) = true := by decide
/-- V-NOP8-1 and V-NOP8-2. -/
theorem test_nop8nC : runs (withRegs [(1, 0x81), (2, 0x03), (15, 0x55)]) 0x812C (fun t => t.pc == 0x202 && t.reg 1 == 0x81 && t.reg 15 == 0x55) = true := by decide
/-- V-NOP8-1 and V-NOP8-2. -/
theorem test_nop8nD : runs (withRegs [(1, 0x81), (2, 0x03), (15, 0x55)]) 0x812D (fun t => t.pc == 0x202 && t.reg 1 == 0x81 && t.reg 15 == 0x55) = true := by decide
/-- V-NOP8-1 and V-NOP8-2. -/
theorem test_nop8nE : runs (withRegs [(1, 0x81), (2, 0x03), (15, 0x55)]) 0x812E (fun t => t.pc == 0x202 && t.reg 1 == 0x81 && t.reg 15 == 0x55) = true := by decide
/-- V-NOP8-1 and V-NOP8-2. -/
theorem test_nop8nF : runs (withRegs [(1, 0x81), (2, 0x03), (15, 0x55)]) 0x812F (fun t => t.pc == 0x202 && t.reg 1 == 0x81 && t.reg 15 == 0x55) = true := by decide
/-- V-SKP-1. -/
theorem test_skp_pressed : stepOf (withRegs [(4, 7)]) 0xE49E [7] (fun t => t.pc == 0x204) = true := by decide
/-- V-SKNP-2. -/
theorem test_sknp_pressed : stepOf (withRegs [(4, 7)]) 0xE4A1 [7] (fun t => t.pc == 0x202) = true := by decide
/-- V-FX0A-1: its own key vector does not complete the wait. -/
theorem test_ldVxK_waits : stepOf State.reset 0xF20A [3] (fun t => t.await == some 2 && t.status == .awaitingKey && t.reg 2 == 0 && t.pc == 0x202) = true := by decide
/-- V-FX0A-2. -/
theorem test_wait_completes : nextHas (((State.reset.setAwait (some 2)).setDt 4).hostStep (Vector.ofFn (fun k => k == 9 || k == 3))) (fun t => t.reg 2 == 3 && t.await == none && t.dt == 4 && t.pc == 0x200 && t.status == .running) = true := by decide
/-- V-TMR-HALT. -/
theorem test_halt : nextHas (step ((State.reset.setProgEnd 0x200).setDt 5)) (fun t => t.status == .halted && t.dt == 5 && t.pc == 0x200) = true := by decide
/-- V-STICKY. -/
theorem test_sticky_fault : nextHas (step (State.reset.setFault (some .stackUnderflow))) (fun t => t.status == .fault .stackUnderflow && t.pc == 0x200) = true := by decide
/-- V-FETCH-WRAP. -/
theorem test_fetch_wraps : nextHas (step ((State.reset.setPc 0xFFF).setMem [(0xFFF, 0x12)])) (fun t => t.pc == 0x2F0) = true := by decide
/-- V-FETCH-FAULT. -/
theorem test_fetch_raises : nextHas (step ((withCfg State.reset memFaultParams).setPc 0xFFF)) (fun t => t.pc == 0xFFF && t.fault == some (.addressOutOfRange 0x1000)) = true := by decide
/-- V-RND-3, on the operation that takes the drawn byte. -/
theorem test_rnd_mask : ((withRegs []).maskedDraw 0xA7 3 0xF0).reg 3 = 0xA0 := by decide
/-- W1. -/
theorem test_load_ends : (match State.reset.hostLoad [0x00, 0xE0] with | .ok t => t.progEnd == 0x202 && t.byteAt 0x201 == 0xE0 | .error _ => false) = true := by decide
/-- V-LOAD-BIG. -/
theorem test_load_too_large : State.reset.hostLoad (List.replicate 3585 0) = .error .programTooLarge := by simp only [State.hostLoad, List.length_replicate]; rfl
/-- The syntax of rule R109. -/
theorem test_listing : [listing (.drw 0xA 0xB 5), listing (.storeRegs 2), listing (.nop0 1 0x23)] = ["DRW VA, VB, 0x5", "LD [I], V2", "NOP0 0x0123"] := by decide
/-- Rule R109 on bits that are not read. -/
theorem test_listing_unread_bits : [listing (.seReg 1 2 0), listing (.seReg 1 2 1)] = ["SE V1, V2", ".word 0x5121 ; SE V1, V2"] := by decide
/-- Rule R340. -/
theorem test_fault_codes : [Fault.stackUnderflow.code, (Fault.addressOutOfRange 5).code, (Fault.fontRegionWrite 5).code, Fault.stackOverflow.code, (Fault.keyIndexOutOfRange 16).code] = [1, 2, 3, 4, 5] := by decide
/-- Rule R10. -/
theorem test_default_params_legal : defaultParams.legal = true := by decide
/-- The canonical form holds at reset. -/
theorem test_reset_memory_wf : Memory.wf State.reset.cfg.glyphs State.reset.mem := by decide

/-! ### Witnesses: a state and operands that meet every hypothesis of a statement, at least one for each of its clauses -/

/-- A state that executes: a JP placed at pc. -/
def active : State := State.reset.withFetchWord 16 0x1234

theorem active_active : active.Active := ⟨by decide, by decide, by decide⟩
theorem active_fetchable : active.Fetchable := Or.inl (by decide)

/-- The witness for every statement about states that meet the invariant. -/
theorem reset_inv : State.reset.Inv where
  memory := by decide
  glyphs := fun _ _ _ => rfl
  marker := by decide
  stack := fun _ h => by cases h
  waiting := Or.inl rfl
  reason := fun _ h => by cases h

/-- A word decodes to what it decodes to, so to nothing else. -/
theorem active_decodes : decodeWord active.opcode = .jp 0x234 := by decide

theorem active_not_dt (x : Reg) (_ : active.Fetchable) : decodeWord active.opcode ≠ .ldDtVx x := by
  rw [active_decodes]; exact fun h => by cases h

theorem active_not_st (x : Reg) (_ : active.Fetchable) : decodeWord active.opcode ≠ .ldStVx x := by
  rw [active_decodes]; exact fun h => by cases h

/-- An answer seen to be a next state is one. -/
theorem answers {o : Result} (h : nextHas o (fun _ => true) = true) : ∃ t, o = .next t := by
  cases o with
  | next t => exact ⟨t, rfl⟩
  | fault r => cases h
  | refused r => cases h

theorem witness_StepRunsTheDecodedInstruction :
    ∃ t, active.Active ∧ active.Fetchable ∧ exec (decodeWord active.opcode) active.begun = .next t :=
  ⟨_, active_active, active_fetchable, rfl⟩
theorem witness_FetchOutOfRangeRaises :
    let s := (withCfg State.reset memFaultParams).setPc 0xFFF
    s.Active ∧ s.cfg.memOor = .fault ∧ 0xFFF ≤ s.pc.toNat :=
  ⟨⟨by decide, by decide, by decide⟩, by decide, by decide⟩
theorem witness_FetchOutOfRangeRaises_past :
    let s := (withCfg State.reset memFaultParams).setPc 0x1000
    s.Active ∧ s.cfg.memOor = .fault ∧ 0xFFF ≤ s.pc.toNat :=
  ⟨⟨by decide, by decide, by decide⟩, by decide, by decide⟩
theorem witness_HaltedStepChangesNothing_at_end :
    let s := State.reset.setProgEnd 0x200
    s.fault = none ∧ s.await = none ∧ s.pc = s.progEnd :=
  by decide
theorem witness_HaltedStepChangesNothing_past_end :
    let s := (State.reset.setProgEnd 0x200).setPc 0x202
    s.fault = none ∧ s.await = none ∧ s.pc ≠ s.progEnd :=
  by decide
theorem witness_FaultedStepChangesNothing :
    (State.reset.setFault (some .stackUnderflow)).fault = some .stackUnderflow :=
  by decide
theorem witness_WaitingStepTakesLeastKey_none :
    let s := State.reset.setAwait (some 2)
    s.fault = none ∧ s.await = some 2 ∧ ∀ j : Reg, s.keys[j.val] = false :=
  by decide
theorem witness_WaitingStepTakesLeastKey_last :
    let s : State := { State.reset with await := some 15, keyInputs := [Vector.ofFn (fun k => k == 15)] }
    s.fault = none ∧ s.await = some 15 ∧ s.keys[15] = true ∧ ∀ j : Reg, j < 15 → s.keys[j.val] = false :=
  by decide
theorem witness_StoppedCoreStaysStopped_halted :
    let s := State.reset.setProgEnd 0x200
    s.fault = none ∧ s.await = none ∧ s.pc = s.progEnd :=
  by decide
theorem witness_WaitEndsAtFirstPress :
    let press : Keys := Vector.ofFn (fun k => k == 7)
    let s : State := { State.reset with await := some 2, keyInputs := [noKeys, press] }
    s.fault = none ∧ s.await = some 2 ∧ s.keyInputs = [noKeys] ++ press :: [] ∧
    (∀ v ∈ [noKeys], ∀ j : Reg, v[j.val] = false) ∧ press[7] = true ∧ ∀ j : Reg, j < 7 → press[j.val] = false :=
  ⟨rfl, rfl, rfl, fun v h j => by rw [List.mem_singleton.mp h]; revert j; decide, by decide, by decide⟩
theorem witness_StepDecrementsTimersOnce_active :
    ∃ t, step active = .next t ∧ active.Active ∧
    (∀ x, active.Fetchable → decodeWord active.opcode ≠ .ldDtVx x) ∧
    ∀ x, active.Fetchable → decodeWord active.opcode ≠ .ldStVx x :=
  (answers (by decide)).imp fun _ h => ⟨h, active_active, active_not_dt, active_not_st⟩
theorem witness_StepDecrementsTimersOnce_halted :
    ∃ t, step (State.reset.setProgEnd 0x200) = .next t ∧ ¬ (State.reset.setProgEnd 0x200).Active :=
  (answers (by decide)).imp fun _ h => ⟨h, fun a => a.2.2 (by decide)⟩
theorem witness_InvariantKeptByEveryStep :
    State.reset.Inv ∧ ∃ t, step State.reset = .next t :=
  ⟨reset_inv, answers (by decide)⟩
theorem witness_LoadProgramCopiesAndMarksEnd :
    0x200 + (List.replicate 3584 (0 : Byte)).length ≤ 4096 ∧
    4096 < 0x200 + (List.replicate 3585 (0 : Byte)).length :=
  by simp only [List.length_replicate]; decide
theorem witness_CanonicalMemoryIsUnique :
    Memory.wf defaultGlyphs [(0x300, 1), (0xFFF, 2)] :=
  by decide
theorem witness_RetPopsOrUnderflows :
    (State.reset.setStack [0x206]).stack = 0x206 :: [] ∧ State.reset.stack = [] :=
  by decide
theorem witness_CallPushesOrOverflows :
    State.reset.cfg.stackCapacity ≠ .bounded State.reset.stack.length ∧
    ((withCfg State.reset oneEntryParams).setStack [0x202]).cfg.stackCapacity = .bounded ((withCfg State.reset oneEntryParams).setStack [0x202]).stack.length :=
  by decide
theorem witness_AddAndSubTimings :
    State.reset.cfg.vfTiming = .snapshot ∧ (withCfg State.reset sequentialParams).cfg.vfTiming = .sequential :=
  by decide
theorem witness_TimingMattersOnlyForVF :
    (0 : Reg) ≠ VF ∧ (14 : Reg) ≠ VF ∧
    ∃ t u, exec (.drw 0 14 5) (withCfg State.reset { State.reset.cfg with vfTiming := .snapshot }) = .next t ∧
    exec (.drw 0 14 5) (withCfg State.reset { State.reset.cfg with vfTiming := .sequential }) = .next u :=
  by
  obtain ⟨t, ht, -⟩ := execDrw_answer 0 14 5 (withCfg State.reset defaultParams)
  obtain ⟨u, hu, -⟩ := execDrw_answer 0 14 5 (withCfg State.reset sequentialParams)
  exact ⟨by decide, by decide, t, u, ht, hu⟩
theorem witness_FontLookupReadsAscii :
    (withRegs [(1, 0x39)]).reg 1 = BitVec.ofNat 8 (0x30 + 9) ∧
    (withRegs [(1, 0x46)]).reg 1 = BitVec.ofNat 8 (0x41 + 5) ∧
    (withRegs [(1, 0x66)]).reg 1 = BitVec.ofNat 8 (0x61 + 5) ∧ ((withRegs [(1, 0x47)]).reg 1).toNat = 0x47 :=
  by decide
theorem witness_DecimalDigitsAreStored :
    (∀ k, k < 3 → (withIndex [] 0x04F).writeRaises (0x04F + k) = none) ∧
    let s := withCfg (withIndex [] 0x0FFE) memFaultParams
    (∀ k, k < 2 → s.writeRaises (0xFFE + k) = none) ∧
    s.writeRaises (0xFFE + 2) = some (.addressOutOfRange 0x1000) :=
  by decide
theorem witness_RegistersAreStored :
    (∀ k, k ≤ 15 → (withIndex [] 0xFFF).writeRaises (0xFFF + k) = none) ∧
    let s := withCfg (withIndex [] 0x0FFF) fontFaultParams
    (∀ k, k < 1 → s.writeRaises (0xFFF + k) = none) ∧ s.writeRaises (0xFFF + 1) = some (.fontRegionWrite 0) :=
  by decide
theorem witness_RegistersAreLoaded :
    State.reset.InRange (0xFFFF + 15) ∧ let s := withCfg (withIndex [] 0x0FFF) memFaultParams
    (∀ k, k < 1 → s.InRange (0xFFF + k)) ∧ ¬ s.InRange (0xFFF + 1) :=
  ⟨Or.inl (by decide), fun k h => Or.inr (by omega), fun h => by rcases h with h | h <;> revert h <;> decide⟩
theorem witness_DrawFlipsExactlyTheSprite :
    State.reset.FixedOrigin 15 15 ∧ State.reset.RowsInRange 15 :=
  ⟨Or.inl (by decide), fun _ _ => Or.inl (by decide)⟩
theorem witness_DrawFlipsExactlyTheSprite_collides :
    (State.reset.flipCell 1).collides 0 0 1 :=
  ⟨1, 0, by decide, by decide, by decide, by decide +kernel⟩
theorem witness_SequentialOriginInVFReadsZero :
    let s := withCfg State.reset sequentialParams
    s.cfg.vfTiming = .sequential ∧ s.RowsInRange 15 :=
  ⟨by decide, fun _ _ => Or.inl (by decide)⟩
theorem witness_DrawRaisesAtFirstUnreadableRow :
    let s := withCfg (withIndex [] 0x0FFF) memFaultParams
    (1 : Nib).toNat < (2 : Nib).toNat ∧ s.RowsInRange 1 ∧ ¬ s.InRange (s.index.toNat + 1) :=
  by
  refine ⟨by decide, fun r h => Or.inr ?_, fun h => ?_⟩
  · have e : r = 0 := by omega
    rw [e]; decide
  · rcases h with h | h <;> revert h <;> decide
theorem witness_DrawingTwiceRestoresTheFramebuffer :
    ∃ t u, exec (.drw 0 1 5) State.reset = .next t ∧ exec (.drw 0 1 5) t = .next u ∧ t.cfg = State.reset.cfg ∧
    t.index = State.reset.index ∧ t.reg 0 = State.reset.reg 0 ∧ t.reg 1 = State.reset.reg 1 ∧
    State.reset.turnsOn 0 0 5 :=
  by
  obtain ⟨t, ht, h1, h2, -⟩ := execDrw_answer 0 1 5 State.reset
  obtain ⟨u, hu, -⟩ := execDrw_answer 0 1 5 t
  exact ⟨t, u, ht, hu, by rw [h1], by rw [h1], h2 0 (by decide), h2 1 (by decide), 0, 0, by decide, by decide, by decide +kernel, by decide +kernel⟩
theorem witness_KeySkipsTestTheCurrentVector :
    ((withRegs [(4, 15)]).reg 4).toNat = 15 ∧ 16 ≤ ((withRegs [(4, 16)]).reg 4).toNat ∧
    State.reset.cfg.keyOor = .notPressed ∧ (withCfg State.reset keyFaultParams).cfg.keyOor = .fault :=
  by decide
theorem witness_KeyWaitIsIssued :
    let s := State.reset.withFetchWord 16 0xF20A
    s.Active ∧ s.Fetchable ∧ s.opcode = 0xF#4 ++ regBits 2 ++ 0x0A#8 :=
  ⟨⟨by decide, by decide, by decide⟩, Or.inl (by decide), by decide⟩
theorem witness_UnrecognizedEncodingsDoNothing :
    (0xE1 : Byte) ≠ 0xE0 ∧ (0xE1 : Byte) ≠ 0xEE ∧ (0xE1 : Byte) ≠ 0x9E ∧ (0xE1 : Byte) ≠ 0xA1 ∧
    (0xE1 : Byte) ∉ [0x07, 0x0A, 0x15, 0x18, 0x1E, 0x29, 0x33, 0x55, (0x65 : Byte)] ∧ 5 < (6 : Nib).toNat ∧
    5 < (15 : Nib).toNat :=
  by decide
theorem witness_HostOperationsKeepInvariant :
    State.reset.Inv ∧ (∃ t, State.reset.hostLoad [0x00, 0xE0] = .ok t) ∧
    ∃ t, State.reset.hostStep noKeys = .next t :=
  ⟨reset_inv, ⟨_, rfl⟩, answers (by decide)⟩
theorem witness_PlacedOpcodeRunsNext :
    State.reset.Fetchable ∧ (State.reset.withFetchWord 16 0xFFFF).pc ≠ State.reset.progEnd ∧
    (0x202 : Nat) ≠ (State.reset.withFetchWord 16 0xFFFF).pc.toNat % 4096 ∧
    0x202 ≠ ((State.reset.withFetchWord 16 0xFFFF).pc.toNat + 1) % 4096 :=
  ⟨Or.inl (by decide), by decide, by decide, by decide⟩
theorem witness_CallThenReturnRestoresPc :
    State.reset.cfg.stackCapacity ≠ .bounded State.reset.stack.length ∧
    (State.reset.setStack [0x200]).stack = [0x200] :=
  by decide
theorem witness_DrawingTwiceRestoresTheFramebuffer_off :
    ¬ State.reset.turnsOn 0 0 0 :=
  fun ⟨_, _, _, _, h, _⟩ => by simp [State.spriteOn] at h
theorem witness_DecodeFollowsOpcodeTable :
    (Instr.nop0 0 0).row.fits 0x00E0 = true ∧ (Instr.nop0 0 0).row.catchAll = true :=
  by decide
theorem witness_DecodeInvertsEncode :
    (Instr.nopF 15 0xFF).wellFormed = true :=
  by decide
theorem witness_RegistersChangeOnlyAsListed :
    ∃ t, exec (.loadRegs 14) State.reset = .next t ∧ (15 : Reg) ∉ writtenRegs (.loadRegs 14) :=
  ⟨_, rfl, by decide⟩
theorem witness_FlagRegisterWriters :
    ∃ t, exec (.ldImm VF 1) State.reset = .next t ∧ t.reg VF ≠ State.reset.reg VF :=
  ⟨_, rfl, by decide⟩
theorem witness_StateChangesOnlyUnderItsWriters :
    ∃ t, exec (.ldDtVx 1) (withRegs [(1, 5)]) = .next t ∧ t.dt ≠ (withRegs [(1, 5)]).dt :=
  ⟨_, rfl, by decide⟩
theorem witness_PcChangesOnlyInControlFlow :
    ∃ t, exec (.jp 0x234) State.reset = .next t ∧ t.pc ≠ State.reset.pc :=
  ⟨_, rfl, by decide⟩
theorem witness_StepKeepsRedrawParametersAndMarker :
    ∃ t, step (State.reset.setRedraw true) = .next t ∧ (State.reset.setRedraw true).redraw = true :=
  (answers (by decide)).imp fun _ h => ⟨h, rfl⟩
theorem witness_FaultsAreRaisedOnlyAsListed :
    ∃ t, exec (.ret 0) State.reset = .next t ∧ t.fault ≠ State.reset.fault :=
  ⟨_, rfl, by decide⟩
theorem witness_DefaultPoliciesRaiseOnlyUnderflow :
    let s := State.reset.withFetchWord 16 0x00EE
    s.cfg.memOor = .wrap ∧ s.cfg.fontWrites ≠ .fault ∧ s.cfg.keyOor = .notPressed ∧
    s.cfg.stackCapacity = .unbounded ∧ s.fault = none ∧ ∃ t, step s = .next t ∧ t.fault = some .stackUnderflow :=
  ⟨by decide, by decide, by decide, by decide, by decide, _, rfl, by decide⟩

/-- A first hit: glyph 0's top row (rule R44) drawn from an origin in VF on a grid whose cell 1 is lit. -/
def firstHitState : State := (withCfg State.reset sequentialParams).flipCell 1

theorem witness_SequentialOriginInVFBecomesOneAtFirstHit :
    firstHitState.cfg.vfTiming = .sequential ∧ firstHitState.RowsInRange (1 : Nib).toNat ∧
      firstHitState.FirstHit 0 0 (1 : Nib).toNat 1 ∧ firstHitState.collides 0 0 (1 : Nib).toNat := by
  refine ⟨by decide, fun _ _ => Or.inl (by decide),
    ⟨by decide, ⟨1, 0, by decide, by decide, by decide, by decide +kernel⟩, ?_⟩,
    1, 0, by decide, by decide, by decide, by decide +kernel⟩
  rintro k hk ⟨x, y, -, -, h, hc⟩
  have e : k = 0 := by omega
  subst e
  simp only [State.dotOn, Bool.and_eq_true, decide_eq_true_eq] at h
  obtain ⟨⟨rfl, rfl⟩, -⟩ := h
  revert hc
  decide +kernel

/-- By rules R262 and R270 dots 0 and 1 fall on columns 0 and 1, and after the hit dots 2 and 3 on columns 3 and 4. -/
theorem witness_SequentialOriginInVFBecomesOneAtFirstHit_cells :
    nextHas (exec (.drw VF 0 1) firstHitState) (fun t => t.cell 0 && !t.cell 1 && !t.cell 2 && t.cell 3 &&
      t.cell 4 && !t.cell 5 && t.reg VF == 1) = true := by decide +kernel

/-- A one-dot sprite on a cell that is lit before the first draw: the case of assumption 12. -/
def prelitState : State := ((withIndex [] 0x300).setMem [(0x300, 0x80)]).flipCell 0

theorem witness_DrawingTwiceRestoresTheFramebuffer_prelit :
    prelitState.FixedOrigin 0 1 ∧ prelitState.collides 0 0 1 ∧ ¬ prelitState.turnsOn 0 0 1 := by
  refine ⟨Or.inl (by decide), ⟨0, 0, by decide, by decide, by decide, by decide +kernel⟩, ?_⟩
  rintro ⟨x, y, hx, hy, h, hc⟩
  simp only [State.spriteOn, Bool.and_eq_true, decide_eq_true_eq] at h
  obtain ⟨⟨h1, h2⟩, h3⟩ := h
  have z : (0 : Byte).toNat = 0 := rfl
  have ey : y = 0 := by omega
  have ex : x < 8 := by omega
  subst ey
  interval_cases x <;> first | (revert h3; decide) | (revert hc; decide +kernel)

/-- The two draws of that case: VF is 1 after the first and 0 after the second (rules R262, R265). -/
theorem witness_DrawingTwiceRestoresTheFramebuffer_prelit_flag :
    nextHas (exec (.drw 0 1 1) prelitState) (fun t => t.reg VF == 1 && !t.cell 0 &&
      nextHas (exec (.drw 0 1 1) t) (fun u => u.reg VF == 0 && u.cell 0)) = true := by decide +kernel

/-- The run of a JP to itself at 0x200: every state of it executes. -/
def jumping : State := State.reset.withFetchWord 16 0x1200

theorem witness_TimersCountDownToZero :
    jumping.Active ∧ step jumping = .next jumping ∧
      ∀ x, decodeWord jumping.opcode ≠ .ldDtVx x ∧ decodeWord jumping.opcode ≠ .ldStVx x := by
  have h : decodeWord jumping.opcode = .jp 0x200 := by decide
  refine ⟨⟨by decide, by decide, by decide⟩, rfl, fun x => ?_⟩
  rw [h]
  exact ⟨by rintro ⟨⟩, by rintro ⟨⟩⟩

end Sys2Proof.Tests
end

section
/-! The host's operations of rule R351, each said once: what Step hands to its call, what the clear writes, what the reads give. -/
namespace Sys2Proof.Machine

/-- The current call's vector is the first one listed (rule R17, assumption 5). -/
@[simp] theorem State.keys_cons_keyInputs (s : State) (key : Keys) (later : List Keys) :
    State.keys { s with keyInputs := key :: later } = key := rfl

theorem State.hostStep_eq_step (s : State) (key : Keys) :
    s.hostStep key = step { s with keyInputs := key :: s.keyInputs } := rfl

theorem State.hostClearRedraw_eq (s : State) : s.hostClearRedraw = { s with redraw := false } := rfl

@[simp] theorem State.hostFramebuffer_eq_fb (s : State) : s.hostFramebuffer = s.fb := rfl

@[simp] theorem State.hostRedraw_eq_redraw (s : State) : s.hostRedraw = s.redraw := rfl

@[simp] theorem State.hostSound_eq_st (s : State) : s.hostSound = s.st := rfl

/-- Settles O56: each operation is the update or the projection that rule R351 says, so its equation holds by definition. -/
theorem hostStepsClearsAndReads : Obligations.HostStepsClearsAndReads := fun s key =>
  ⟨s.hostStep_eq_step key, s.keys_cons_keyInputs key s.keyInputs, s.hostClearRedraw_eq,
    s.hostFramebuffer_eq_fb, s.hostRedraw_eq_redraw, s.hostSound_eq_st⟩

end Sys2Proof.Machine
end

section
/-! A canonical memory lists exactly the bytes that read otherwise than after Initialize, so what it reads as determines it (rule R43, assumption 6). -/
namespace Sys2Proof.Machine

/-- With rising addresses the byte found at an address is the one listed for it. -/
theorem Memory.find_eq_some_iff {m : Memory} (hm : m.Pairwise (fun p q => p.1 < q.1)) (c : Host.Cell) :
    Memory.find m c.1 = some c.2 ↔ c ∈ m := by
  induction m with
  | nil => simp [Memory.find]
  | cons p m ih =>
    obtain ⟨hp, hm⟩ := List.pairwise_cons.1 hm
    rw [Memory.find, List.mem_cons]
    by_cases h : p.1 = c.1
    · have hc : c ∉ m := fun hc => absurd (hp c hc) (by omega)
      simp [h, hc, Prod.ext_iff, eq_comm]
    · have hc : c ≠ p := fun hc => h (hc ▸ rfl)
      simp [h, hc, ih hm]

/-- The cells of a canonical memory, by what it reads as. -/
theorem Memory.mem_iff_peek {g : GlyphTable} {m : Memory} (hm : Memory.wf g m) (c : Host.Cell) :
    c ∈ m ↔ Memory.peek g m c.1 = c.2 ∧ c.2 ≠ resetByte g c.1 := by
  obtain ⟨hrise, hcell⟩ := hm
  rw [← Memory.find_eq_some_iff hrise, Memory.peek]
  cases hf : Memory.find m c.1 with
  | none => simpa using fun h => h.symm
  | some b =>
    have hb : b ≠ resetByte g c.1 := (hcell (c.1, b) ((Memory.find_eq_some_iff hrise (c.1, b)).1 hf)).2
    simp only [Option.some.injEq]
    exact ⟨fun h => ⟨h, h ▸ hb⟩, And.left⟩

/-- Settles O22: both lists rise and have the same cells, those that the common reading gives. -/
theorem canonicalMemoryIsUnique : Obligations.CanonicalMemoryIsUnique := by
  intro g m m' hm hm' hpeek
  have hmem (c : Host.Cell) : c ∈ m ↔ c ∈ m' := by
    rw [Memory.mem_iff_peek hm, Memory.mem_iff_peek hm', hpeek]
  have : Std.Irrefl fun p q : Host.Cell => p.1 < q.1 := ⟨fun _ => Nat.lt_irrefl _⟩
  have : Std.Antisymm fun p q : Host.Cell => p.1 < q.1 := ⟨fun _ _ h h' => absurd h' (Nat.lt_asymm h)⟩
  exact hm.1.eq_of_mem_iff hm'.1 hmem

end Sys2Proof.Machine
end

section
/-! The frame of every instruction (10_state.md, rules R32 to R52): which pieces of state it may write, said once as a table and proved once for all of `exec`. -/
namespace Sys2Proof.Machine

/-! ### The pieces of state and what it is to change only some of them -/

/-- The pieces of state, besides the registers, that some instruction writes. -/
inductive Piece where
  | index | pc | stack | dt | st | mem | fb | redraw | await | fault | draws

/-- Two states agree on a piece of state. -/
@[simp] def State.AgreesOn (s t : State) : Piece → Prop
  | .index => t.index = s.index
  | .pc => t.pc = s.pc
  | .stack => t.stack = s.stack
  | .dt => t.dt = s.dt
  | .st => t.st = s.st
  | .mem => t.mem = s.mem
  | .fb => t.fb = s.fb
  | .redraw => t.redraw = s.redraw
  | .await => t.await = s.await
  | .fault => t.fault = s.fault
  | .draws => t.draws = s.draws

/-- `t` differs from `s` at most in the registers `rs` and the pieces `ps`. -/
structure State.ChangesOnly (rs : List Reg) (ps : List Piece) (s t : State) : Prop where
  cfg : t.cfg = s.cfg
  progEnd : t.progEnd = s.progEnd
  keyInputs : t.keyInputs = s.keyInputs
  status : t.status = s.status
  reg : ∀ r, r ∉ rs → t.reg r = s.reg r
  piece : ∀ p, p ∉ ps → s.AgreesOn t p

namespace State.ChangesOnly

variable {s t u : State} {rs rs' : List Reg} {ps ps' : List Piece}

theorem refl (s : State) : ChangesOnly rs ps s s :=
  ⟨rfl, rfl, rfl, rfl, fun _ _ => rfl, fun p _ => by cases p <;> rfl⟩

theorem mono (h : ChangesOnly rs ps s t) (hr : rs ⊆ rs') (hp : ps ⊆ ps') : ChangesOnly rs' ps' s t :=
  ⟨h.cfg, h.progEnd, h.keyInputs, h.status, fun r k => h.reg r fun k' => k (hr k'),
    fun p k => h.piece p fun k' => k (hp k')⟩

theorem trans (h : ChangesOnly rs ps s t) (k : ChangesOnly rs' ps' t u) :
    ChangesOnly (rs ++ rs') (ps ++ ps') s u where
  cfg := k.cfg.trans h.cfg
  progEnd := k.progEnd.trans h.progEnd
  keyInputs := k.keyInputs.trans h.keyInputs
  status := k.status.trans h.status
  reg r hr := by
    rw [List.mem_append, not_or] at hr
    exact (k.reg r hr.2).trans (h.reg r hr.1)
  piece p hp := by
    rw [List.mem_append, not_or] at hp
    have h' := h.piece p hp.1
    have k' := k.piece p hp.2
    cases p <;> exact k'.trans h'

/-- What memory reads as is a matter of the stored cells and the parameters. -/
theorem byteAt (h : ChangesOnly rs ps s t) (hp : .mem ∉ ps) (a : Nat) : t.byteAt a = s.byteAt a := by
  have hm : t.mem = s.mem := h.piece .mem hp
  rw [State.byteAt, State.byteAt, h.cfg, hm]

/-! One lemma per operation of the state. -/

theorem setReg (s : State) (r : Reg) (v : Byte) : ChangesOnly [r] [] s (s.setReg r v) :=
  ⟨rfl, rfl, rfl, rfl, fun q hq => State.reg_setReg_other _ _ _ _ (by simpa using hq), fun p _ => by cases p <;> rfl⟩

theorem setIndex (s : State) (v : Word) : ChangesOnly [] [.index] s (s.setIndex v) :=
  ⟨rfl, rfl, rfl, rfl, fun _ _ => rfl, fun p hp => by cases p <;> simp at hp ⊢⟩

theorem setPc (s : State) (v : Word) : ChangesOnly [] [.pc] s (s.setPc v) :=
  ⟨rfl, rfl, rfl, rfl, fun _ _ => rfl, fun p hp => by cases p <;> simp at hp ⊢⟩

theorem setStack (s : State) (l : List Word) : ChangesOnly [] [.stack] s (s.setStack l) :=
  ⟨rfl, rfl, rfl, rfl, fun _ _ => rfl, fun p hp => by cases p <;> simp at hp ⊢⟩

theorem setDt (s : State) (v : Byte) : ChangesOnly [] [.dt] s (s.setDt v) :=
  ⟨rfl, rfl, rfl, rfl, fun _ _ => rfl, fun p hp => by cases p <;> simp at hp ⊢⟩

theorem setSt (s : State) (v : Byte) : ChangesOnly [] [.st] s (s.setSt v) :=
  ⟨rfl, rfl, rfl, rfl, fun _ _ => rfl, fun p hp => by cases p <;> simp at hp ⊢⟩

theorem setFb (s : State) (f : Vector Bool 2048) : ChangesOnly [] [.fb] s (s.setFb f) :=
  ⟨rfl, rfl, rfl, rfl, fun _ _ => rfl, fun p hp => by cases p <;> simp at hp ⊢⟩

theorem setRedraw (s : State) (b : Bool) : ChangesOnly [] [.redraw] s (s.setRedraw b) :=
  ⟨rfl, rfl, rfl, rfl, fun _ _ => rfl, fun p hp => by cases p <;> simp at hp ⊢⟩

theorem setAwait (s : State) (o : Option Reg) : ChangesOnly [] [.await] s (s.setAwait o) :=
  ⟨rfl, rfl, rfl, rfl, fun _ _ => rfl, fun p hp => by cases p <;> simp at hp ⊢⟩

theorem countDraw (s : State) : ChangesOnly [] [.draws] s s.countDraw :=
  ⟨rfl, rfl, rfl, rfl, fun _ _ => rfl, fun p hp => by cases p <;> simp at hp ⊢⟩

theorem setFault (s : State) (o : Option Fault) : ChangesOnly [] [.fault] s (s.setFault o) :=
  ⟨rfl, rfl, rfl, rfl, fun _ _ => rfl, fun p hp => by cases p <;> simp at hp ⊢⟩

theorem raise (s : State) (r : Fault) : ChangesOnly [] [.fault] s (s.raise r) := setFault s (some r)

theorem skipIf (s : State) (c : Bool) : ChangesOnly [] [.pc] s (s.skipIf c) := by
  cases c with
  | false => exact refl s
  | true => exact setPc s _

theorem flaggedOp (s : State) (flag res : Byte → Byte → Byte) (x y : Reg) :
    ChangesOnly [VF, x] [] s (s.flaggedOp flag res x y) := by
  unfold State.flaggedOp
  cases s.cfg.vfTiming with
  | snapshot => exact (setReg s VF _).trans (setReg _ x _)
  | sequential => exact (setReg s VF _).trans (setReg _ x _)

end State.ChangesOnly

/-! ### The meanings that may raise -/

theorem execRet_changesOnly (z : Nib) (s : State) :
    ∃ t, execRet z s = .next t ∧ State.ChangesOnly [] [.pc, .stack, .fault] s t := by
  unfold execRet
  cases s.stack with
  | nil => exact ⟨_, rfl, (State.ChangesOnly.raise s _).mono (by simp) (by simp)⟩
  | cons a rest =>
    exact ⟨_, rfl, ((State.ChangesOnly.setStack s rest).trans (.setPc _ a)).mono (by simp) (by simp)⟩

theorem execCall_changesOnly (nnn : Addr12) (s : State) :
    ∃ t, execCall nnn s = .next t ∧ State.ChangesOnly [] [.pc, .stack, .fault] s t := by
  unfold execCall
  cases s.stackFull with
  | true => exact ⟨_, rfl, (State.ChangesOnly.raise s _).mono (by simp) (by simp)⟩
  | false =>
    exact ⟨_, rfl, ((State.ChangesOnly.setStack s _).trans (.setPc _ _)).mono (by simp) (by simp)⟩

theorem execSkp_changesOnly (x : Reg) (s : State) :
    ∃ t, execSkp x s = .next t ∧ State.ChangesOnly [] [.pc, .fault] s t := by
  unfold execSkp
  cases s.pressed (s.reg x) with
  | ok b => exact ⟨_, rfl, (State.ChangesOnly.skipIf s b).mono (by simp) (by simp)⟩
  | error r => exact ⟨_, rfl, (State.ChangesOnly.raise s r).mono (by simp) (by simp)⟩

theorem execSknp_changesOnly (x : Reg) (s : State) :
    ∃ t, execSknp x s = .next t ∧ State.ChangesOnly [] [.pc, .fault] s t := by
  unfold execSknp
  cases s.pressed (s.reg x) with
  | ok b => exact ⟨_, rfl, (State.ChangesOnly.skipIf s _).mono (by simp) (by simp)⟩
  | error r => exact ⟨_, rfl, (State.ChangesOnly.raise s r).mono (by simp) (by simp)⟩

theorem writeBytes_changesOnly (s : State) (a : Nat) (vs : List Byte) :
    ∃ t, (writeBytes s a vs).answer = .next t ∧ State.ChangesOnly [] [.mem, .fault] s t := by
  obtain ⟨t, ht, hframe, -⟩ := writeBytes_answer s a vs
  refine ⟨t, ht, ?_⟩
  rw [hframe]
  exact ⟨rfl, rfl, rfl, rfl, fun _ _ => rfl, fun p hp => by cases p <;> simp at hp ⊢⟩

theorem execLoadRegs_changesOnly (x : Reg) (s : State) :
    ∃ t, execLoadRegs x s = .next t ∧ State.ChangesOnly (writtenRegs (.loadRegs x)) [.fault] s t := by
  obtain ⟨t, ht, hframe, hreg, -⟩ := readRegs_answer s s.dataAddr (regsUpTo x)
  refine ⟨t, ht, by rw [hframe], by rw [hframe], by rw [hframe], by rw [hframe], fun r hr => hreg r ?_, fun p hp => ?_⟩
  · simpa [mem_regsUpTo, writtenRegs] using hr
  · rw [hframe]
    cases p <;> simp at hp ⊢

theorem execDrw_changesOnly (x y : Reg) (n : Nib) (s : State) :
    ∃ t, execDrw x y n s = .next t ∧ State.ChangesOnly [VF] [.fb, .redraw, .fault] s t := by
  obtain ⟨t, ht, hframe, hreg, -⟩ := execDrw_answer x y n s
  refine ⟨t, ht, by rw [hframe], by rw [hframe], by rw [hframe], by rw [hframe],
    fun r hr => hreg r (by simpa using hr), fun p hp => ?_⟩
  rw [hframe]
  cases p <;> simp at hp ⊢

/-! ### The frame of every instruction -/

/-- What an instruction may write besides `writtenRegs`; one that may raise (rule R340) may write the
fault status. -/
def writtenPieces : Instr → List Piece
  | .cls _ => [.fb, .redraw]
  | .drw _ _ _ => [.fb, .redraw, .fault]
  | .ret _ | .call _ => [.pc, .stack, .fault]
  | .jp _ | .jpV0 _ | .seImm _ _ | .sneImm _ _ | .seReg _ _ _ | .sneReg _ _ _ => [.pc]
  | .skp _ | .sknp _ => [.pc, .fault]
  | .ldI _ | .addI _ | .ldF _ => [.index]
  | .ldB _ | .storeRegs _ => [.mem, .fault]
  | .loadRegs _ => [.fault]
  | .ldDtVx _ => [.dt]
  | .ldStVx _ => [.st]
  | .ldVxK _ => [.await]
  | .rnd _ _ => [.draws]
  | _ => []

/-- Every instruction answers a next state that differs only in what the two tables list for it. -/
theorem exec_changesOnly (i : Instr) (s : State) :
    ∃ t, exec i s = .next t ∧ State.ChangesOnly (writtenRegs i) (writtenPieces i) s t := by
  cases i with
  | cls z => exact ⟨_, rfl, (State.ChangesOnly.setFb s _).trans (.setRedraw _ _)⟩
  | ret z => exact execRet_changesOnly z s
  | jp nnn => exact ⟨_, rfl, .setPc s _⟩
  | call nnn => exact execCall_changesOnly nnn s
  | seImm x nn => exact ⟨_, rfl, .skipIf s _⟩
  | sneImm x nn => exact ⟨_, rfl, .skipIf s _⟩
  | seReg x y z => exact ⟨_, rfl, .skipIf s _⟩
  | sneReg x y z => exact ⟨_, rfl, .skipIf s _⟩
  | jpV0 nnn => exact ⟨_, rfl, .setPc s _⟩
  | ldImm x nn => exact ⟨_, rfl, .setReg s x _⟩
  | addImm x nn => exact ⟨_, rfl, .setReg s x _⟩
  | ldReg x y => exact ⟨_, rfl, .setReg s x _⟩
  | orReg x y => exact ⟨_, rfl, .setReg s x _⟩
  | andReg x y => exact ⟨_, rfl, .setReg s x _⟩
  | xorReg x y => exact ⟨_, rfl, .setReg s x _⟩
  | addReg x y => exact ⟨_, rfl, .flaggedOp s _ _ x y⟩
  | subReg x y => exact ⟨_, rfl, .flaggedOp s _ _ x y⟩
  | rnd x nn => exact ⟨_, rfl, (State.ChangesOnly.setReg s x _).trans (.countDraw _)⟩
  | ldI nnn => exact ⟨_, rfl, .setIndex s _⟩
  | addI x => exact ⟨_, rfl, .setIndex s _⟩
  | ldF x => exact ⟨_, rfl, .setIndex s _⟩
  | ldB x => exact writeBytes_changesOnly s _ _
  | storeRegs x => exact writeBytes_changesOnly s _ _
  | loadRegs x => exact execLoadRegs_changesOnly x s
  | drw x y n => exact execDrw_changesOnly x y n s
  | skp x => exact execSkp_changesOnly x s
  | sknp x => exact execSknp_changesOnly x s
  | ldVxDt x => exact ⟨_, rfl, .setReg s x _⟩
  | ldVxK x => exact ⟨_, rfl, .setAwait s _⟩
  | ldDtVx x => exact ⟨_, rfl, .setDt s _⟩
  | ldStVx x => exact ⟨_, rfl, .setSt s _⟩
  | _ => exact ⟨s, rfl, .refl s⟩

/-- The frame as proofs use it, of a given answer. -/
theorem changesOnly_of_exec {i : Instr} {s t : State} (h : exec i s = .next t) :
    State.ChangesOnly (writtenRegs i) (writtenPieces i) s t := by
  obtain ⟨u, hu, hframe⟩ := exec_changesOnly i s
  obtain rfl : u = t := by simpa [hu] using h
  exact hframe

theorem mem_writtenRegs_of_exec {i : Instr} {s t : State} {r : Reg} (h : exec i s = .next t)
    (hr : t.reg r ≠ s.reg r) : r ∈ writtenRegs i := by
  by_contra hi
  exact hr ((changesOnly_of_exec h).reg r hi)

theorem mem_writtenPieces_of_exec {i : Instr} {s t : State} {p : Piece} (h : exec i s = .next t)
    (hp : ¬ s.AgreesOn t p) : p ∈ writtenPieces i := by
  by_contra hi
  exact hp ((changesOnly_of_exec h).piece p hi)

theorem mem_writtenPieces_of_byteAt_ne {i : Instr} {s t : State} {a : Nat} (h : exec i s = .next t)
    (ha : t.byteAt a ≠ s.byteAt a) : .mem ∈ writtenPieces i := by
  by_contra hi
  exact ha ((changesOnly_of_exec h).byteAt hi a)

/-! ### The tables read backwards: which instructions write a given piece -/

theorem writers_VF {i : Instr} (h : VF ∈ writtenRegs i) :
    (∃ x y, i = .addReg x y ∨ i = .subReg x y) ∨ (∃ x y n, i = .drw x y n) ∨
    (∃ nn, i = .ldImm VF nn ∨ i = .addImm VF nn ∨ i = .rnd VF nn) ∨
    (∃ y, i = .ldReg VF y ∨ i = .orReg VF y ∨ i = .andReg VF y ∨ i = .xorReg VF y) ∨
    i = .ldVxDt VF ∨ i = .loadRegs VF := by
  cases i with
  | loadRegs x =>
    -- VF is the last register, so it is loaded only when the last register to load is VF.
    have hx : VF ≤ x := by simpa [writtenRegs] using h
    simp [Fin.last_le_iff.1 hx]
  | _ => simp_all [writtenRegs]

theorem writers_pc {i : Instr} (h : .pc ∈ writtenPieces i) :
    (∃ z, i = .ret z) ∨ (∃ nnn, i = .jp nnn ∨ i = .call nnn ∨ i = .jpV0 nnn) ∨
    (∃ x nn, i = .seImm x nn ∨ i = .sneImm x nn) ∨ (∃ x y z, i = .seReg x y z ∨ i = .sneReg x y z) ∨
    ∃ x, i = .skp x ∨ i = .sknp x := by
  cases i with
  | ret z => exact .inl ⟨z, rfl⟩
  | jp nnn => exact .inr (.inl ⟨nnn, .inl rfl⟩)
  | call nnn => exact .inr (.inl ⟨nnn, .inr (.inl rfl)⟩)
  | jpV0 nnn => exact .inr (.inl ⟨nnn, .inr (.inr rfl)⟩)
  | seImm x nn => exact .inr (.inr (.inl ⟨x, nn, .inl rfl⟩))
  | sneImm x nn => exact .inr (.inr (.inl ⟨x, nn, .inr rfl⟩))
  | seReg x y z => exact .inr (.inr (.inr (.inl ⟨x, y, z, .inl rfl⟩)))
  | sneReg x y z => exact .inr (.inr (.inr (.inl ⟨x, y, z, .inr rfl⟩)))
  | skp x => exact .inr (.inr (.inr (.inr ⟨x, .inl rfl⟩)))
  | sknp x => exact .inr (.inr (.inr (.inr ⟨x, .inr rfl⟩)))
  | _ => simp [writtenPieces] at h

theorem writers_screen {i : Instr} (h : .fb ∈ writtenPieces i ∨ .redraw ∈ writtenPieces i) :
    (∃ z, i = .cls z) ∨ ∃ x y n, i = .drw x y n := by
  cases i with
  | cls z => exact .inl ⟨z, rfl⟩
  | drw x y n => exact .inr ⟨x, y, n, rfl⟩
  | _ => simp [writtenPieces] at h

theorem writers_stack {i : Instr} (h : .stack ∈ writtenPieces i) : (∃ z, i = .ret z) ∨ ∃ nnn, i = .call nnn := by
  cases i with
  | ret z => exact .inl ⟨z, rfl⟩
  | call nnn => exact .inr ⟨nnn, rfl⟩
  | _ => simp [writtenPieces] at h

theorem writers_index {i : Instr} (h : .index ∈ writtenPieces i) :
    (∃ nnn, i = .ldI nnn) ∨ ∃ x, i = .addI x ∨ i = .ldF x := by
  cases i with
  | ldI nnn => exact .inl ⟨nnn, rfl⟩
  | addI x => exact .inr ⟨x, .inl rfl⟩
  | ldF x => exact .inr ⟨x, .inr rfl⟩
  | _ => simp [writtenPieces] at h

theorem writers_mem {i : Instr} (h : .mem ∈ writtenPieces i) : ∃ x, i = .ldB x ∨ i = .storeRegs x := by
  cases i with
  | ldB x => exact ⟨x, .inl rfl⟩
  | storeRegs x => exact ⟨x, .inr rfl⟩
  | _ => simp [writtenPieces] at h

theorem writers_dt {i : Instr} (h : .dt ∈ writtenPieces i) : ∃ x, i = .ldDtVx x := by
  cases i with
  | ldDtVx x => exact ⟨x, rfl⟩
  | _ => simp [writtenPieces] at h

theorem writers_st {i : Instr} (h : .st ∈ writtenPieces i) : ∃ x, i = .ldStVx x := by
  cases i with
  | ldStVx x => exact ⟨x, rfl⟩
  | _ => simp [writtenPieces] at h

theorem writers_await {i : Instr} (h : .await ∈ writtenPieces i) : ∃ x, i = .ldVxK x := by
  cases i with
  | ldVxK x => exact ⟨x, rfl⟩
  | _ => simp [writtenPieces] at h

theorem writers_draws {i : Instr} (h : .draws ∈ writtenPieces i) : ∃ x nn, i = .rnd x nn := by
  cases i with
  | rnd x nn => exact ⟨x, nn, rfl⟩
  | _ => simp [writtenPieces] at h

/-! ### The obligations -/

/-- Settles O49: what changes VF lists it in the writes column of rule R32. -/
theorem flagRegisterWriters : Obligations.FlagRegisterWriters := fun _ _ _ h hVF =>
  writers_VF (mem_writtenRegs_of_exec h hVF)

/-- Settles O51: what changes pc lists it. -/
theorem pcChangesOnlyInControlFlow : Obligations.PcChangesOnlyInControlFlow := fun _ _ _ h hpc =>
  writers_pc (mem_writtenPieces_of_exec h hpc)

/-- Settles O50: what changes a piece lists it, and no table lists the parameters, the end marker, the key vectors or the
status. -/
theorem stateChangesOnlyUnderItsWriters : Obligations.StateChangesOnlyUnderItsWriters := by
  intro i s t h
  have hframe := changesOnly_of_exec h
  have written {p : Piece} (hp : ¬ s.AgreesOn t p) : p ∈ writtenPieces i := mem_writtenPieces_of_exec h hp
  refine ⟨hframe.cfg, hframe.progEnd, hframe.keyInputs, hframe.status, ?screen, ?stack, ?index, ?mem, ?dt, ?st, ?await,
    ?draws⟩
  case screen => exact fun hne => writers_screen (hne.imp written written)
  case stack => exact fun hne => writers_stack (written hne)
  case index => exact fun hne => writers_index (written hne)
  case mem => exact fun ⟨_, hne⟩ => writers_mem (mem_writtenPieces_of_byteAt_ne h hne)
  case dt => exact fun hne => writers_dt (written hne)
  case st => exact fun hne => writers_st (written hne)
  case await => exact fun hne => writers_await (written hne)
  case draws => exact fun hne => writers_draws (written hne)

end Sys2Proof.Machine
end

section
/-! Placing an opcode for the next step (rules R71, R72, assumption 9): what clears its way, what storing it changes, and the step of a state that executes (rule R142). -/
namespace Sys2Proof.Machine

/-! ### A step that executes -/

/-- Parts 4 to 8 of rule R142, for a state that reaches its instruction. -/
theorem step_of_exec {s t : State} (hactive : s.Active) (hfetch : s.Fetchable)
    (hexec : exec (decodeWord s.opcode) s.begun = .next t) : step s = .next t.conclude := by
  have hop : s.tick.fetch = .ok s.opcode := State.fetch_inRange (s := s.tick) hfetch
  rw [step_active hactive, runInstruction, hop]
  simp [State.tick_advance, hexec]

/-- Rule R149, by cases of the wait and not by its test. -/
theorem State.executedStatus_eq (s : State) : s.executedStatus = match s.fault with
    | some r => .fault r
    | none => if s.await = none then .running else .awaitingKey := by
  rw [State.executedStatus]
  cases s.fault with
  | some r => rfl
  | none => cases s.await <;> rfl

theorem State.conclude_eq (s : State) : s.conclude = { s with
    status := match s.fault with
      | some r => .fault r
      | none => if s.await = none then .running else .awaitingKey
    keyInputs := s.keyInputs.tail } :=
  congrArg s.finish s.executedStatus_eq

/-! ### Clearing the way to the fetch -/

theorem State.fetchable_iff {s : State} : s.Fetchable ↔ ¬ (s.cfg.memOor = .fault ∧ 0xFFF ≤ s.pc.toNat) := by
  rw [State.Fetchable, State.InRange]
  cases s.cfg.memOor with
  | wrap => simp
  | fault => simp; omega

theorem State.readyToFetch_pc (s : State) :
    s.readyToFetch.pc = if s.cfg.memOor = .fault ∧ 0xFFF ≤ s.pc.toNat then 0x200 else s.pc := rfl

theorem State.readyToFetch_progEnd (s : State) :
    s.readyToFetch.progEnd = if s.progEnd = s.readyToFetch.pc
      then (if s.readyToFetch.pc = 0x1000 then 0x200 else 0x1000) else s.progEnd := rfl

theorem State.readyToFetch_pc_of_fetchable {s : State} (h : s.Fetchable) : s.readyToFetch.pc = s.pc := by
  rw [s.readyToFetch_pc, if_neg (fetchable_iff.1 h)]

theorem State.readyToFetch_progEnd_of_ne {s : State} (h : s.readyToFetch.pc ≠ s.progEnd) :
    s.readyToFetch.progEnd = s.progEnd := by
  rw [s.readyToFetch_progEnd, if_neg h.symm]

theorem State.readyToFetch_active (s : State) : s.readyToFetch.Active := by
  refine ⟨rfl, rfl, ?_⟩
  rw [s.readyToFetch_progEnd]
  split_ifs with hend hpc
  · simp [hpc]
  · exact hpc
  · exact Ne.symm hend

theorem State.readyToFetch_fetchable (s : State) : s.readyToFetch.Fetchable := by
  by_cases h : s.Fetchable
  · rwa [State.Fetchable, State.readyToFetch_pc_of_fetchable h]
  · rw [fetchable_iff, not_not] at h
    have hpc : s.readyToFetch.pc = 0x200 := by rw [s.readyToFetch_pc, if_pos h]
    exact .inr (by rw [hpc]; decide)

/-! ### Storing the opcode -/

theorem State.byteAt_placeOpcode (s : State) (op : Word) (a : Nat) :
    (s.placeOpcode op).byteAt a = if a = (s.pc.toNat + 1) % 4096 then op.extractLsb' 0 8
      else if a = s.pc.toNat % 4096 then op.extractLsb' 8 8 else s.byteAt a := by
  simp only [State.placeOpcode, State.byteAt_pokeByte]

/-- The fetch reads back the opcode placed: its two addresses differ. -/
theorem State.opcode_placeOpcode (s : State) (op : Word) : (s.placeOpcode op).opcode = op := by
  have hne : s.pc.toNat % 4096 ≠ (s.pc.toNat + 1) % 4096 := by omega
  have hpc : (s.placeOpcode op).pc = s.pc := rfl
  rw [State.opcode, hpc, State.byteAt_placeOpcode, State.byteAt_placeOpcode, if_neg hne, if_pos rfl, if_pos rfl]
  exact joinBytes_wordBytes op

/-! ### The opcode as opcode_table.json numbers it -/

theorem tableWord_sixteen (w : Nat) : tableWord 16 w = BitVec.ofNat 16 w :=
  BitVec.eq_of_toNat_eq (by simp [tableWord])

theorem decodeTableWord_eq (nbits w : Nat) : decodeTableWord nbits w = some (decodeWord (tableWord nbits w)) := by
  have h := decode_wordBytes (tableWord nbits w) []
  rw [List.append_nil] at h
  rw [decodeTableWord, h]

theorem State.opcode_withFetchWord (s : State) (nbits w : Nat) :
    (s.withFetchWord nbits w).opcode = tableWord nbits w :=
  s.readyToFetch.opcode_placeOpcode _

/-- Settles O21: the placed state executes and its fetch reads the opcode back, so its step runs that instruction. -/
theorem placedOpcodeRunsNext : Obligations.PlacedOpcodeRunsNext := by
  intro s w u
  -- Storing the bytes touches memory only, so what holds of the cleared state holds of `u`.
  have hactive : u.Active := s.readyToFetch_active
  have hfetch : u.Fetchable := s.readyToFetch_fetchable
  have hop : u.opcode = tableWord 16 w := s.opcode_withFetchWord 16 w
  refine ⟨?runs, hactive, hfetch, ?decodes, ?opcode, rfl, ?bytes, ?pc, ?marker⟩
  case runs =>
    obtain ⟨t, ht, -⟩ := exec_changesOnly (decodeWord u.opcode) u.begun
    refine ⟨t, ?_, ?_⟩
    · rwa [hop, tableWord_sixteen] at ht
    · exact (step_of_exec hactive hfetch ht).trans (congrArg _ t.conclude_eq)
  case decodes => rw [hop, decodeTableWord_eq]
  case opcode => rw [hop, tableWord_sixteen]
  case bytes =>
    intro a hhi hlo
    exact (s.readyToFetch.byteAt_placeOpcode _ a).trans ((if_neg hlo).trans (if_neg hhi))
  case pc => exact State.readyToFetch_pc_of_fetchable
  case marker => exact State.readyToFetch_progEnd_of_ne

end Sys2Proof.Machine
end

section
/-! The decoder and the encoder against each other and against the opcode table (rules R101 to R108): the default rows, the two directions of the round trip, and the rows that fit a word. -/
namespace Sys2Proof

/-! ### The bytes a family does not assign go to its default row (rules R321 to R323) -/

@[simp] theorem Instr.wellFormed_nop0 (z : Nib) (s : Byte) : (nop0 z s).wellFormed = true ↔ s ∉ family0Bytes := by
  simp [wellFormed]

@[simp] theorem Instr.wellFormed_nopE (x : Reg) (s : Byte) : (nopE x s).wellFormed = true ↔ s ∉ familyEBytes := by
  simp [wellFormed]

@[simp] theorem Instr.wellFormed_nopF (x : Reg) (s : Byte) : (nopF x s).wellFormed = true ↔ s ∉ familyFBytes := by
  simp [wellFormed]

theorem decode0_of_notMem {z : Nib} {s : Byte} (h : s ∉ family0Bytes) : decode0 z s = .nop0 z s := by
  simp only [family0Bytes, List.mem_cons, not_or] at h
  simp only [decode0, h, if_false]

theorem decodeE_of_notMem {x : Reg} {s : Byte} (h : s ∉ familyEBytes) : decodeE x s = .nopE x s := by
  simp only [familyEBytes, List.mem_cons, not_or] at h
  simp only [decodeE, h, if_false]

theorem decodeF_of_notMem {x : Reg} {s : Byte} (h : s ∉ familyFBytes) : decodeF x s = .nopF x s := by
  simp only [familyFBytes, List.mem_cons, not_or] at h
  simp only [decodeF, h, if_false]

/-! ### Decoding an encoded instruction -/

/-! Families 0, E and F select by the low byte, family 8 by the low nibble (rule R104). -/

theorem decodeWord_family0 (z : Nib) (s : Byte) : decodeWord (formatXB 0x0 z s) = decode0 z s := by
  simp [decodeWord]

theorem decodeWord_family8 (x y : Reg) (n : Nib) :
    decodeWord (formatXYN 0x8 (regBits x) (regBits y) n) = decode8 x y n := by
  simp [decodeWord]

theorem decodeWord_familyE (x : Reg) (s : Byte) : decodeWord (formatXB 0xE (regBits x) s) = decodeE x s := by
  simp [decodeWord]

theorem decodeWord_familyF (x : Reg) (s : Byte) : decodeWord (formatXB 0xF (regBits x) s) = decodeF x s := by
  simp [decodeWord]

theorem decodeWord_encode {i : Instr} (h : i.wellFormed = true) : decodeWord (encode i) = i := by
  cases i with
  | nop0 z s => exact (decodeWord_family0 z s).trans (decode0_of_notMem ((Instr.wellFormed_nop0 z s).1 h))
  | nopE x s => exact (decodeWord_familyE x s).trans (decodeE_of_notMem ((Instr.wellFormed_nopE x s).1 h))
  | nopF x s => exact (decodeWord_familyF x s).trans (decodeF_of_notMem ((Instr.wellFormed_nopF x s).1 h))
  | cls z | ret z => exact decodeWord_family0 z _
  | skp x | sknp x => exact decodeWord_familyE x _
  | ldVxDt x | ldVxK x | ldDtVx x | ldStVx x | addI x | ldF x | ldB x | storeRegs x | loadRegs x =>
    exact decodeWord_familyF x _
  | ldReg x y | orReg x y | andReg x y | xorReg x y | addReg x y | subReg x y | nop8n6 x y | nop8n7 x y | nop8n8 x y
  | nop8n9 x y | nop8nA x y | nop8nB x y | nop8nC x y | nop8nD x y | nop8nE x y | nop8nF x y =>
    exact decodeWord_family8 x y _
  | _ =>
    -- The family alone selects the instruction; its operands are read back from the format.
    simp [encode, decodeWord]

/-- Settles O2: the word round trip, and the two bytes of a word are that word again. -/
theorem decodeInvertsEncode : Obligations.DecodeInvertsEncode := by
  intro i rest h
  refine ⟨decodeWord_encode h, ?_⟩
  rw [decode_wordBytes, decodeWord_encode h]

/-! ### Encoding a decoded word -/

/-- The instruction is well formed and the word is its encoding. -/
structure Instr.StandsFor (i : Instr) (w : Word) : Prop where
  wellFormed : i.wellFormed = true
  encode_eq : encode i = w

theorem Instr.StandsFor.of_eq {i : Instr} {v w : Word} (h : i.StandsFor v) (e : v = w) : i.StandsFor w := e ▸ h

theorem decode0_standsFor (z : Nib) (s : Byte) : (decode0 z s).StandsFor (formatXB 0x0 z s) := by
  by_cases h : s ∈ family0Bytes
  · simp only [family0Bytes, List.mem_cons, List.not_mem_nil, or_false] at h
    obtain rfl | rfl := h <;> exact ⟨rfl, rfl⟩
  · rw [decode0_of_notMem h]
    exact ⟨(Instr.wellFormed_nop0 z s).2 h, rfl⟩

theorem decodeE_standsFor (x : Reg) (s : Byte) : (decodeE x s).StandsFor (formatXB 0xE (regBits x) s) := by
  by_cases h : s ∈ familyEBytes
  · simp only [familyEBytes, List.mem_cons, List.not_mem_nil, or_false] at h
    obtain rfl | rfl := h <;> exact ⟨rfl, rfl⟩
  · rw [decodeE_of_notMem h]
    exact ⟨(Instr.wellFormed_nopE x s).2 h, rfl⟩

theorem decodeF_standsFor (x : Reg) (s : Byte) : (decodeF x s).StandsFor (formatXB 0xF (regBits x) s) := by
  by_cases h : s ∈ familyFBytes
  · simp only [familyFBytes, List.mem_cons, List.not_mem_nil, or_false] at h
    obtain rfl | rfl | rfl | rfl | rfl | rfl | rfl | rfl | rfl := h <;> exact ⟨rfl, rfl⟩
  · rw [decodeF_of_notMem h]
    exact ⟨(Instr.wellFormed_nopF x s).2 h, rfl⟩

theorem decode8_standsFor (x y : Reg) (n : Nib) :
    (decode8 x y n).StandsFor (formatXYN 0x8 (regBits x) (regBits y) n) := by
  obtain ⟨k⟩ := n
  fin_cases k <;> exact ⟨rfl, rfl⟩

/-! A word of a known family is its other fields under that family's nibble. -/

section
variable {w : Word} {f : Nib} (h : (fieldF w).toNat = f.toNat)
include h

theorem formatA_of_family : formatA f (fieldNNN w) = w := by
  rw [← BitVec.eq_of_toNat_eq h, formatA_fields]

theorem formatXB_of_family : formatXB f (fieldZ w) (fieldNN w) = w := by
  rw [← BitVec.eq_of_toNat_eq h, formatXB_fields]

theorem formatXYN_of_family : formatXYN f (fieldZ w) (regBits (fieldY w)) (fieldN w) = w := by
  rw [← BitVec.eq_of_toNat_eq h, formatXYN_fields]

end

/-- One case for each family, in the decoder's order. -/
theorem decodeWord_standsFor (w : Word) : (decodeWord w).StandsFor w := by
  unfold decodeWord
  split
  case h_1 h => exact (decode0_standsFor _ _).of_eq (formatXB_of_family (f := 0x0) h)
  case h_2 h => exact ⟨rfl, formatA_of_family (f := 0x1) h⟩
  case h_3 h => exact ⟨rfl, formatA_of_family (f := 0x2) h⟩
  case h_4 h => exact ⟨rfl, formatXB_of_family (f := 0x3) h⟩
  case h_5 h => exact ⟨rfl, formatXB_of_family (f := 0x4) h⟩
  case h_6 h => exact ⟨rfl, formatXYN_of_family (f := 0x5) h⟩
  case h_7 h => exact ⟨rfl, formatXB_of_family (f := 0x6) h⟩
  case h_8 h => exact ⟨rfl, formatXB_of_family (f := 0x7) h⟩
  case h_9 h => exact (decode8_standsFor _ _ _).of_eq (formatXYN_of_family (f := 0x8) h)
  case h_10 h => exact ⟨rfl, formatXYN_of_family (f := 0x9) h⟩
  case h_11 h => exact ⟨rfl, formatA_of_family (f := 0xA) h⟩
  case h_12 h => exact ⟨rfl, formatA_of_family (f := 0xB) h⟩
  case h_13 h => exact ⟨rfl, formatXB_of_family (f := 0xC) h⟩
  case h_14 h => exact ⟨rfl, formatXYN_of_family (f := 0xD) h⟩
  case h_15 h => exact (decodeE_standsFor _ _).of_eq (formatXB_of_family (f := 0xE) h)
  case h_16 =>
    have h : (fieldF w).toNat = (0xF : Nib).toNat := by
      have hlt : (fieldF w).toNat < 16 := (fieldF w).isLt
      -- The decoder's last arm says that the nibble is none of 0 to 14.
      simp only [imp_false] at *
      show (fieldF w).toNat = 15
      omega
    exact (decodeF_standsFor _ _).of_eq (formatXB_of_family h)

/-- Settles O3: what a word decodes to stands for it, whatever its family. -/
theorem encodeInvertsDecode : Obligations.EncodeInvertsDecode := fun w =>
  ⟨(decodeWord_standsFor w).wellFormed, (decodeWord_standsFor w).encode_eq⟩

/-- Settles O1: each word is evaluated. -/
theorem sampleWordsDecode : Obligations.SampleWordsDecode := by
  unfold Obligations.SampleWordsDecode
  decide

/-! ### The rows of the opcode table (rule R106) -/

/-- The facts of `Laws.TableRow`, gathered by format. -/
theorem row_fits_encode (i : Instr) : i.row.fits (encode i) = true := by
  cases i with
  | jp nnn | call nnn | ldI nnn | jpV0 nnn => exact fits_formatA _ nnn _
  | cls z | ret z => exact fits_formatXS _ z _ _
  | skp x | sknp x | ldVxDt x | ldVxK x | ldDtVx x | ldStVx x | addI x | ldF x | ldB x | storeRegs x | loadRegs x =>
    exact fits_formatXS _ (regBits x) _ _
  | seReg x y n | sneReg x y n | drw x y n => exact fits_formatXYZ _ (regBits x) (regBits y) n _
  | ldReg x y | orReg x y | andReg x y | xorReg x y | addReg x y | subReg x y | nop8n6 x y | nop8n7 x y | nop8n8 x y
  | nop8n9 x y | nop8nA x y | nop8nB x y | nop8nC x y | nop8nD x y | nop8nE x y | nop8nF x y =>
    exact fits_formatXYN _ (regBits x) (regBits y) _ _
  | nop0 z s => exact fits_formatXB 0x0 z s _
  | seImm x nn | sneImm x nn | ldImm x nn | addImm x nn | rnd x nn | nopE x nn | nopF x nn =>
    exact fits_formatXB _ (regBits x) nn _

/-! A row that fits a word fixes those fields of the word that its mask covers. -/

section
variable {mask pattern w : Word} {c : Bool} (h : OpcodeRow.fits ⟨mask, pattern, c⟩ w = true)
include h

theorem and_mask_of_fits : w &&& mask = pattern := eq_of_beq h

theorem fieldF_of_fits (hmask : fieldF mask = 15#4) : fieldF w = fieldF pattern := by
  rw [← and_mask_of_fits h, fieldF, fieldF, BitVec.extractLsb'_and, ← fieldF, ← fieldF, hmask, nib_and_ones]

theorem fieldN_of_fits (hmask : fieldN mask = 15#4) : fieldN w = fieldN pattern := by
  rw [← and_mask_of_fits h, fieldN, fieldN, BitVec.extractLsb'_and, ← fieldN, ← fieldN, hmask, nib_and_ones]

theorem fieldNN_of_fits (hmask : fieldNN mask = 255#8) : fieldNN w = fieldNN pattern := by
  rw [← and_mask_of_fits h, fieldNN, fieldNN, BitVec.extractLsb'_and, ← fieldNN, ← fieldNN, hmask, byte_and_ones]

end

/-- A row that is no default row fixes every field by which the decoder selects, so it decides the decoded row. -/
theorem row_decodeWord_of_fits {i : Instr} {w : Word} (h : i.row.fits w = true) (hi : i.row.catchAll = false) :
    (decodeWord w).row = i.row := by
  cases i with
  | nop0 | nopE | nopF => simp [Instr.row] at hi
  | cls | ret | skp | sknp | ldVxDt | ldVxK | ldDtVx | ldStVx | addI | ldF | ldB | storeRegs | loadRegs =>
    rw [decodeWord, fieldF_of_fits h rfl, fieldNN_of_fits h rfl]
    rfl
  | ldReg | orReg | andReg | xorReg | addReg | subReg | nop8n6 | nop8n7 | nop8n8 | nop8n9 | nop8nA | nop8nB | nop8nC
  | nop8nD | nop8nE | nop8nF =>
    rw [decodeWord, fieldF_of_fits h rfl, fieldN_of_fits h rfl]
    rfl
  | _ =>
    rw [decodeWord, fieldF_of_fits h rfl]
    rfl

/-- Settles O4: a word is the encoding of its instruction, which that instruction's row fits; any other row that fits
decides the decoded row unless it is a default row. -/
theorem decodeFollowsOpcodeTable : Obligations.DecodeFollowsOpcodeTable := by
  intro w
  refine ⟨?_, fun i hfits => ?_⟩
  · have h := row_fits_encode (decodeWord w)
    rwa [(decodeWord_standsFor w).encode_eq] at h
  · cases hi : i.row.catchAll with
    | true => exact .inr rfl
    | false => exact .inl (row_decodeWord_of_fits hfits hi).symm

end Sys2Proof
end

section
/-! Every step answers (rules R107, R142, R343): what each way a step can end answers, said once. -/
namespace Sys2Proof.Machine

theorem step_of_fault {s : State} {r : Fault} (hfault : s.fault = some r) : step s = .next (s.finish (.fault r)) := by
  simp [step, cycle, hfault]

theorem step_of_await {s : State} {x : Reg} (hfault : s.fault = none) (hawait : s.await = some x) :
    step s = .next (s.completeWait x) := by
  simp [step, cycle, hfault, hawait]

theorem step_of_end {s : State} (hfault : s.fault = none) (hawait : s.await = none) (hend : s.pc = s.progEnd) :
    step s = .next (s.finish .halted) := by
  simp [step, cycle, hfault, hawait, hend]

theorem step_of_fetch_error {s : State} {r : Fault} (hactive : s.Active) (hfetch : s.tick.fetch = .error r) :
    step s = .next (s.tick.raise r).conclude := by
  rw [step_active hactive, runInstruction, hfetch]

theorem exec_answers (i : Instr) (s : State) : ∃ t, exec i s = .next t := by
  obtain ⟨t, ht, -⟩ := exec_changesOnly i s
  exact ⟨t, ht⟩

theorem step_answers_of_active {s : State} (hactive : s.Active) : ∃ t, step s = .next t := by
  by_cases hfetch : s.Fetchable
  · obtain ⟨t, ht⟩ := exec_answers (decodeWord s.opcode) s.begun
    exact ⟨_, step_of_exec hactive hfetch ht⟩
  · obtain ⟨-, herror⟩ := State.fetch_outOfRange (s := s.tick) hfetch
    exact ⟨_, step_of_fetch_error hactive herror⟩

theorem step_answers (s : State) : ∃ t, step s = .next t := by
  cases hfault : s.fault with
  | some r => exact ⟨_, step_of_fault hfault⟩
  | none =>
    cases hawait : s.await with
    | some x => exact ⟨_, step_of_await hfault hawait⟩
    | none =>
      by_cases hend : s.pc = s.progEnd
      · exact ⟨_, step_of_end hfault hawait hend⟩
      · exact step_answers_of_active ⟨hfault, hawait, hend⟩

/-- Settles O13: each way a step can end answers a next state, and so does every instruction. -/
theorem everyInstructionAndStepAnswers : Obligations.EveryInstructionAndStepAnswers :=
  ⟨exec_answers, step_answers⟩

end Sys2Proof.Machine
end

section
/-! The step by its parts (40_step.md, rule R142): the instruction it runs, a fetch out of range, the halt, the issued wait, and the core that has stopped. -/
namespace Sys2Proof.Machine

/-! ### A step that executes -/

/-- Settles O6: the step concludes what the instruction answers. -/
theorem stepRunsTheDecodedInstruction : Obligations.StepRunsTheDecodedInstruction := fun _ t hactive hfetch hexec =>
  (step_of_exec hactive hfetch hexec).trans (congrArg _ t.conclude_eq)

theorem step_of_not_fetchable {s : State} (hactive : s.Active) (hfetch : ¬ s.Fetchable) :
    step s = .next (s.tick.raise (.addressOutOfRange (max s.pc.toNat 4096))).conclude :=
  step_of_fetch_error hactive (State.fetch_outOfRange (s := s.tick) hfetch).2

theorem State.conclude_raise (s : State) (r : Fault) :
    (s.raise r).conclude = { s with fault := some r, status := .fault r, keyInputs := s.keyInputs.tail } := rfl

/-- Settles O7: the fetch raises for the greater of pc and 4096, after the timers only. -/
theorem fetchOutOfRangeRaises : Obligations.FetchOutOfRangeRaises := by
  intro s hactive hmem hpc a
  have hfetch : ¬ s.Fetchable := fun h => State.fetchable_iff.1 h ⟨hmem, hpc⟩
  have ha : max s.pc.toNat 4096 = a := by
    simp only [a]
    split <;> omega
  rw [step_of_not_fetchable hactive hfetch, ha, State.conclude_raise, State.tick_eq]
  rfl

/-! ### The halt -/

/-- Past the fault, wait and halt checks a step ends with the status of rule R149, even where its fetch raises. -/
theorem step_concludes_of_active {s : State} (hactive : s.Active) : ∃ t : State, step s = .next t.conclude := by
  by_cases hfetch : s.Fetchable
  · obtain ⟨t, ht⟩ := exec_answers (decodeWord s.opcode) s.begun
    exact ⟨t, step_of_exec hactive hfetch ht⟩
  · exact ⟨_, step_of_not_fetchable hactive hfetch⟩

theorem State.conclude_status_ne_halted (s : State) : s.conclude.status ≠ .halted := by
  show s.executedStatus ≠ .halted
  unfold State.executedStatus
  split
  · simp
  · split <;> simp

/-- Settles O8: at the end marker the step only finishes its call, and a step that executes concludes, never as halted. -/
theorem haltedStepChangesNothing : Obligations.HaltedStepChangesNothing := by
  intro s hfault hawait
  refine ⟨step_of_end hfault hawait, fun hend => ?_⟩
  obtain ⟨t, ht⟩ := step_concludes_of_active ⟨hfault, hawait, hend⟩
  exact ⟨_, ht, t.conclude_status_ne_halted⟩

/-! ### A core that has stopped -/

/-- The core has faulted or halted, and this is the result of its next Step call (rules R53, R143, R144). -/
inductive State.StoppedAs (s : State) : Status → Prop
  | faulted {r : Fault} (hfault : s.fault = some r) : s.StoppedAs (.fault r)
  | halted (hfault : s.fault = none) (hawait : s.await = none) (hend : s.pc = s.progEnd) : s.StoppedAs .halted

theorem step_of_stoppedAs {s : State} {q : Status} (h : s.StoppedAs q) : step s = .next (s.finish q) := by
  cases h with
  | faulted hfault => exact step_of_fault hfault
  | halted hfault hawait hend => exact step_of_end hfault hawait hend

/-- What stops a core is none of the fields that the end of a call writes. -/
theorem State.StoppedAs.finish {s : State} {q : Status} (h : s.StoppedAs q) : (s.finish q).StoppedAs q := by
  cases h with
  | faulted hfault => exact .faulted hfault
  | halted hfault hawait hend => exact .halted hfault hawait hend

theorem run_of_stoppedAs {s : State} {q : Status} (h : s.StoppedAs q) (n : Nat) :
    Host.Core.run core (n + 1) s =
      (Host.Outcome.next { s with status := q, keyInputs := s.keyInputs.drop (n + 1) } : Result) := by
  induction n generalizing s with
  | zero => rw [run_succ (step_of_stoppedAs h), List.drop_one]; rfl
  | succ n ih => rw [run_succ (step_of_stoppedAs h), ih h.finish, s.finish_keyInputs q, List.drop_tail]; rfl

/-- Settles O11: both ways of having stopped are kept by the step, so by every run. -/
theorem stoppedCoreStaysStopped : Obligations.StoppedCoreStaysStopped := fun n _ =>
  ⟨fun _ hfault => run_of_stoppedAs (.faulted hfault) n,
    fun hfault hawait hend => run_of_stoppedAs (.halted hfault hawait hend) n⟩

/-! ### The issued wait (rule R296) -/

theorem exec_ldVxK (x : Reg) (s : State) : exec (.ldVxK x) s = .next (s.setAwait (some x)) := rfl

theorem State.conclude_setAwait_some {s : State} (hfault : s.fault = none) (x : Reg) :
    (s.setAwait (some x)).conclude = (s.setAwait (some x)).finish .awaitingKey := by
  simp [State.conclude, State.executedStatus, hfault]

/-- Settles O46: the instruction only sets the wait, and a step that ends waiting without a fault reports AwaitingKey
without a look at its keys. -/
theorem keyWaitIsIssued : Obligations.KeyWaitIsIssued := by
  intro x s
  have hdecode : decodeWord (0xF#4 ++ regBits x ++ 0x0A#8) = .ldVxK x := decodeWord_familyF x 0x0A
  refine ⟨hdecode, exec_ldVxK x s, fun hactive hfetch hop => ?_⟩
  have hexec : exec (decodeWord s.opcode) s.begun = .next (s.begun.setAwait (some x)) := by
    rw [hop, hdecode, exec_ldVxK]
  have hfault : s.begun.fault = none := hactive.1
  rw [step_of_exec hactive hfetch hexec, State.conclude_setAwait_some hfault]
  rfl

end Sys2Proof.Machine
end

section
/-! Control flow (41_control_flow.md): what RET, the absolute jumps and the register skips answer, as updates of the state. -/
namespace Sys2Proof.Machine

/-! ### RET (rule R170) -/

theorem exec_ret_of_cons (z : Nib) {s : State} {a : Word} {rest : List Word} (h : s.stack = a :: rest) :
    exec (.ret z) s = .next ((s.setStack rest).setPc a) := by
  rw [exec, execRet, h]

theorem exec_ret_of_nil (z : Nib) {s : State} (h : s.stack = []) :
    exec (.ret z) s = .next (s.raise .stackUnderflow) := by
  rw [exec, execRet, h]

/-- Settles O23: RET answers by cases of the stack. -/
theorem retPopsOrUnderflows : Obligations.RetPopsOrUnderflows := fun z _ =>
  ⟨decodeWord_encode (i := .ret z) rfl, fun _ _ hcons => exec_ret_of_cons z hcons, fun hnil => exec_ret_of_nil z hnil⟩

/-! ### The absolute jumps (rules R171, R177) -/

theorem zext16_eq_ofNat (nnn : Addr12) : zext16 nnn = BitVec.ofNat 16 nnn.toNat :=
  (BitVec.ofNat_toNat 16 nnn).symm

/-- The sum of JP V0 is one of 16-bit words, so 12 bits do not bound it. -/
theorem zext16_add_setWidth (nnn : Addr12) (v : Byte) :
    zext16 nnn + v.setWidth 16 = BitVec.ofNat 16 (nnn.toNat + v.toNat) := by
  rw [BitVec.ofNat_add, zext16_eq_ofNat, BitVec.ofNat_toNat 16 v]

theorem exec_jp (nnn : Addr12) (s : State) : exec (.jp nnn) s = .next (s.setPc (BitVec.ofNat 16 nnn.toNat)) := by
  rw [exec, execJp, zext16_eq_ofNat]

theorem exec_jpV0 (nnn : Addr12) (s : State) :
    exec (.jpV0 nnn) s = .next (s.setPc (BitVec.ofNat 16 (nnn.toNat + (s.reg 0).toNat))) := by
  rw [exec, execJpV0, zext16_add_setWidth]

/-- Settles O24: each jump is one write of pc. -/
theorem jumpsSetPc : Obligations.JumpsSetPc := fun nnn s =>
  ⟨decodeWord_encode (i := .jp nnn) rfl, decodeWord_encode (i := .jpV0 nnn) rfl, exec_jp nnn s, exec_jpV0 nnn s⟩

/-! ### The skips (rules R173 to R176, R178) -/

theorem State.advance_eq (s : State) : s.advance = { s with pc := BitVec.ofNat 16 ((s.pc.toNat + 2) % 65536) } :=
  congrArg s.setPc (word_add_two s.pc)

/-- A skip whose test decides `p` moves pc when `p` holds and does nothing otherwise. -/
theorem State.skipIf_of_iff (s : State) {c : Bool} {p : Prop} [Decidable p] (h : c = true ↔ p) :
    s.skipIf c = if p then { s with pc := BitVec.ofNat 16 ((s.pc.toNat + 2) % 65536) } else s := by
  rw [State.skipIf, State.advance_eq]
  exact if_congr h rfl rfl

/-- Settles O27: each skip tests its condition, and the four differ in nothing else. -/
theorem skipsTestAndAddTwo : Obligations.SkipsTestAndAddTwo := fun x y nn z s =>
  ⟨decodeWord_encode (i := .seImm x nn) rfl, decodeWord_encode (i := .sneImm x nn) rfl,
    decodeWord_encode (i := .seReg x y z) rfl, decodeWord_encode (i := .sneReg x y z) rfl,
    congrArg Host.Outcome.next (s.skipIf_of_iff beq_iff_eq), congrArg Host.Outcome.next (s.skipIf_of_iff bne_iff_ne),
    congrArg Host.Outcome.next (s.skipIf_of_iff beq_iff_eq), congrArg Host.Outcome.next (s.skipIf_of_iff bne_iff_ne)⟩

end Sys2Proof.Machine
end

section
/-! The register loads and the ALU (42_alu.md, rules R200 to R207 and R210): the arithmetic of a byte, and what each instruction answers as an update of the state. -/
namespace Sys2Proof.Machine

/-! ### The arithmetic of a byte as arithmetic of numbers -/

theorem sum8_eq (a b : Byte) : sum8 a b = BitVec.ofNat 8 ((a.toNat + b.toNat) % 256) :=
  BitVec.eq_of_toNat_eq (by simp [sum8])

theorem diff8_eq (a b : Byte) : diff8 a b = BitVec.ofNat 8 ((a.toNat + 256 - b.toNat) % 256) := by
  apply BitVec.eq_of_toNat_eq
  rw [diff8, BitVec.toNat_sub, BitVec.toNat_ofNat]
  omega

/-- The integer difference of rule R207 is negative exactly when the first byte is below the second. -/
theorem noBorrow_eq (a b : Byte) : noBorrow a b = if a.toNat < b.toNat then 0 else 1 :=
  if_congr (by omega) rfl rfl

/-! ### The loads and ADD Vx, NN (rules R200 to R202) -/

theorem exec_ldImm (x : Reg) (nn : Byte) (s : State) : exec (.ldImm x nn) s = .next (s.setReg x nn) := rfl

theorem exec_addImm (x : Reg) (nn : Byte) (s : State) :
    exec (.addImm x nn) s = .next (s.setReg x (BitVec.ofNat 8 (((s.reg x).toNat + nn.toNat) % 256))) := by
  rw [exec, execAddImm, sum8_eq]

theorem exec_ldReg (x y : Reg) (s : State) : exec (.ldReg x y) s = .next (s.setReg x (s.reg y)) := rfl

/-- Settles O28: each of the three is one write of Vx. -/
theorem loadsAndAddImmediate : Obligations.LoadsAndAddImmediate := fun x y nn s =>
  ⟨decodeWord_encode (i := .ldImm x nn) rfl, decodeWord_encode (i := .addImm x nn) rfl,
    decodeWord_encode (i := .ldReg x y) rfl, exec_ldImm x nn s, exec_addImm x nn s, exec_ldReg x y s⟩

/-! ### OR, AND and XOR (rules R203 to R205) -/

theorem exec_orReg (x y : Reg) (s : State) : exec (.orReg x y) s = .next (s.setReg x (s.reg x ||| s.reg y)) := rfl

theorem exec_andReg (x y : Reg) (s : State) : exec (.andReg x y) s = .next (s.setReg x (s.reg x &&& s.reg y)) := rfl

theorem exec_xorReg (x y : Reg) (s : State) : exec (.xorReg x y) s = .next (s.setReg x (s.reg x ^^^ s.reg y)) := rfl

/-- Settles O29: each of the three writes Vx once, and the byte it writes is read bit by bit. -/
theorem logicIsBitwise : Obligations.LogicIsBitwise := fun x y s =>
  ⟨decodeWord_encode (i := .orReg x y) rfl, decodeWord_encode (i := .andReg x y) rfl,
    decodeWord_encode (i := .xorReg x y) rfl,
    ⟨_, exec_orReg x y s, fun _ => BitVec.getLsbD_or⟩, ⟨_, exec_andReg x y s, fun _ => BitVec.getLsbD_and⟩,
    ⟨_, exec_xorReg x y s, fun _ => BitVec.getLsbD_xor⟩⟩

/-! ### ADD and SUB of two registers under each operand timing (rules R206, R207, R210) -/

theorem exec_addReg (x y : Reg) (s : State) : exec (.addReg x y) s = .next (s.flaggedOp carry sum8 x y) := rfl

theorem exec_subReg (x y : Reg) (s : State) : exec (.subReg x y) s = .next (s.flaggedOp noBorrow diff8 x y) := rfl

section
variable {s : State} (flag res : Byte → Byte → Byte) (x y : Reg)

theorem State.flaggedOp_of_snapshot (h : s.cfg.vfTiming = .snapshot) :
    s.flaggedOp flag res x y = (s.setReg VF (flag (s.reg x) (s.reg y))).setReg x (res (s.reg x) (s.reg y)) := by
  rw [State.flaggedOp, h]

theorem State.flaggedOp_of_sequential (h : s.cfg.vfTiming = .sequential) :
    s.flaggedOp flag res x y = (s.setReg VF (flag (s.reg x) (s.reg y))).setReg x
      (res ((s.setReg VF (flag (s.reg x) (s.reg y))).reg x) ((s.setReg VF (flag (s.reg x) (s.reg y))).reg y)) := by
  rw [State.flaggedOp, h]

end

/-- Settles O30: by cases of the operand timing; only the sum has to be read as a sum of numbers. -/
theorem addWritesCarryThenSum : Obligations.AddWritesCarryThenSum := by
  intro x y s
  refine ⟨decodeWord_encode (i := .addReg x y) rfl, fun hsnapshot => ?_, fun hsequential => ?_⟩
  · rw [exec_addReg, State.flaggedOp_of_snapshot _ _ _ _ hsnapshot, sum8_eq]
    rfl
  · rw [exec_addReg, State.flaggedOp_of_sequential _ _ _ _ hsequential, sum8_eq]
    rfl

/-- Settles O31: by cases of the operand timing; the flag compares and the difference wraps as numbers do. -/
theorem subWritesNoBorrowThenDifference : Obligations.SubWritesNoBorrowThenDifference := by
  intro x y s
  refine ⟨decodeWord_encode (i := .subReg x y) rfl, fun hsnapshot => ?_, fun hsequential => ?_⟩
  · rw [exec_subReg, State.flaggedOp_of_snapshot _ _ _ _ hsnapshot, noBorrow_eq, diff8_eq]
    rfl
  · rw [exec_subReg, State.flaggedOp_of_sequential _ _ _ _ hsequential, noBorrow_eq, diff8_eq]
    rfl

end Sys2Proof.Machine
end

section
/-! The index register and the memory transfers (43_index_memory.md): what I becomes, and what a sequence of writes or of register loads leaves behind, whole or up to its first raise. -/
namespace Sys2Proof.Machine

/-! ### LD I, ADD I and LD F (rules R230, R231, R235, R236) -/

theorem word_add_byte (w : Word) (v : Byte) :
    w + v.setWidth 16 = BitVec.ofNat 16 ((w.toNat + v.toNat) % 65536) :=
  BitVec.eq_of_toNat_eq (by simp [BitVec.toNat_add])

theorem exec_ldI (nnn : Addr12) (s : State) :
    exec (.ldI nnn) s = .next (s.setIndex (BitVec.ofNat 16 nnn.toNat)) := by
  rw [exec, execLdI, zext16_eq_ofNat]

theorem exec_addI (x : Reg) (s : State) : exec (.addI x) s =
    .next (s.setIndex (BitVec.ofNat 16 ((s.index.toNat + (s.reg x).toNat) % 65536))) := by
  rw [exec, execAddI, word_add_byte]

/-- Settles O34: each of the two is one write of I. -/
theorem indexLoadAndAdd : Obligations.IndexLoadAndAdd := fun nnn x s =>
  ⟨decodeWord_encode (i := .ldI nnn) rfl, decodeWord_encode (i := .addI x) rfl, exec_ldI nnn s, exec_addI x s⟩

section
variable {c : Byte} {e : Nat}

theorem hexval_lt (c : Byte) : hexval c < 16 := by
  rw [hexval]
  split_ifs <;> omega

theorem hexval_of_decimal (he : e < 10) (h : c.toNat = 0x30 + e) : hexval c = e := by
  rw [hexval, if_pos (by omega)]
  omega

theorem hexval_of_lower (he : e < 6) (h : c.toNat = 0x61 + e) : hexval c = 10 + e := by
  rw [hexval, if_neg (by omega), if_pos (by omega)]
  omega

theorem hexval_of_upper (he : e < 6) (h : c.toNat = 0x41 + e) : hexval c = 10 + e := by
  rw [hexval, if_neg (by omega), if_neg (by omega), if_pos (by omega)]
  omega

theorem hexval_of_other (hdecimal : ¬ (0x30 ≤ c.toNat ∧ c.toNat ≤ 0x39))
    (hlower : ¬ (0x61 ≤ c.toNat ∧ c.toNat ≤ 0x66)) (hupper : ¬ (0x41 ≤ c.toNat ∧ c.toNat ≤ 0x46)) :
    hexval c = 0 := by
  rw [hexval, if_neg hdecimal, if_neg hlower, if_neg hupper]

end

theorem exec_ldF (x : Reg) (s : State) :
    exec (.ldF x) s = .next (s.setIndex (BitVec.ofNat 16 (hexval (s.reg x) * 5))) := rfl

/-- Settles O35: the digit is the model's `hexval`, read range by range. -/
theorem fontLookupReadsAscii : Obligations.FontLookupReadsAscii := fun x s =>
  ⟨decodeWord_encode (i := .ldF x) rfl, hexval (s.reg x), exec_ldF x s, hexval_lt _,
    fun _ => hexval_of_decimal, fun _ he h => h.elim (hexval_of_lower he) (hexval_of_upper he), hexval_of_other⟩

/-! ### One write, by the fault it raises (rules R73, R75) -/

section
variable {s t : State} {a b : Nat} {v : Byte} {r : Fault}

theorem State.inRange_iff : s.InRange a ↔ ¬ (s.cfg.memOor = .fault ∧ 4096 ≤ a) := by
  rw [State.InRange]
  cases s.cfg.memOor <;> simp

theorem State.InRange.mono (h : s.InRange b) (hab : a ≤ b) : s.InRange a :=
  h.imp_right (Nat.lt_of_le_of_lt hab)

theorem State.memWrite_of_writeRaises_none (h : s.writeRaises a = none) (v : Byte) :
    s.memWrite a v = .ok (if s.cfg.fontWrites = .discard ∧ a % 4096 < 0x50 then s else s.pokeByte (a % 4096) v) := by
  rw [State.writeRaises] at h
  split_ifs at h with hrange hglyph
  rw [State.memWrite, reduce_inRange (State.inRange_iff.2 hrange)]
  by_cases hb : a % 4096 < 0x50
  · cases hf : s.cfg.fontWrites <;> simp [hb, hf] at hglyph ⊢
  · simp [hb]

theorem State.memWrite_of_writeRaises_some (h : s.writeRaises a = some r) (v : Byte) : s.memWrite a v = .error r := by
  rw [State.writeRaises] at h
  split_ifs at h with hrange hglyph
  · obtain rfl := Option.some.inj h
    rw [State.memWrite, reduce_outOfRange fun hin => State.inRange_iff.1 hin hrange]
  · obtain rfl := Option.some.inj h
    rw [State.memWrite, reduce_inRange (State.inRange_iff.2 hrange)]
    simp [hglyph]

/-- A write that raises nothing leaves `written` at its address. -/
theorem State.memWrite_written (h : s.writeRaises a = none) (v : Byte) :
    ∃ t, s.memWrite a v = .ok t ∧ t.byteAt (a % 4096) = s.written a v := by
  refine ⟨_, State.memWrite_of_writeRaises_none h v, ?_⟩
  rw [State.written]
  split_ifs with hdiscard
  · rfl
  · simp

/-- The fault a write raises is a matter of the parameters alone. -/
theorem State.writeRaises_congr (h : t.cfg = s.cfg) (a : Nat) : t.writeRaises a = s.writeRaises a := by
  rw [State.writeRaises, State.writeRaises, h]

theorem State.written_congr (hcfg : t.cfg = s.cfg) (hbyte : t.byteAt (a % 4096) = s.byteAt (a % 4096)) (v : Byte) :
    t.written a v = s.written a v := by
  rw [State.written, State.written, hcfg, hbyte]

end

/-! ### A sequence of writes (rule R76) -/

/-- `t` is `s` after the first `n` bytes of `vs` were written at `a`, `a + 1`, … without a raise. -/
structure State.Stored (s : State) (a : Nat) (vs : List Byte) (n : Nat) (t : State) : Prop where
  frame : t = { s with mem := t.mem }
  byte : ∀ k v, k < n → vs[k]? = some v → t.byteAt ((a + k) % 4096) = s.written (a + k) v
  other : ∀ c, (∀ k, k < n → c ≠ (a + k) % 4096) → t.byteAt c = s.byteAt c

section
variable {s t u : State} {a n : Nat} {v : Byte} {vs : List Byte} {r : Fault}

theorem State.Stored.cfg (h : s.Stored a vs n t) : t.cfg = s.cfg := by rw [h.frame]

theorem State.Stored.zero (s : State) (a : Nat) (vs : List Byte) : s.Stored a vs 0 s :=
  ⟨rfl, fun _ _ hk => absurd hk (Nat.not_lt_zero _), fun _ _ => rfl⟩

/-- One more write: at most 4096 consecutive addresses stay different when they are reduced, so it meets no earlier
byte. -/
theorem State.Stored.succ (h : s.Stored a vs n t) (hn : n < 4096) (hv : vs[n]? = some v)
    (hw : t.memWrite (a + n) v = .ok u) (hbyte : u.byteAt ((a + n) % 4096) = t.written (a + n) v) :
    s.Stored a vs (n + 1) u := by
  obtain ⟨hframe, hother, -⟩ := State.memWrite_ok hw
  refine ⟨by rw [hframe, h.frame], fun k w hk hkw => ?_, fun c hc => ?_⟩
  · obtain hk | rfl := Nat.lt_succ_iff_lt_or_eq.1 hk
    · rw [hother _ (by omega), h.byte k w hk hkw]
    · obtain rfl : v = w := Option.some.inj (hv.symm.trans hkw)
      rw [hbyte, State.written_congr h.cfg (h.other _ fun i hi => by omega)]
  · rw [hother c (hc n n.lt_succ_self), h.other c fun k hk => hc k (Nat.lt_succ_of_lt hk)]

/-- As long as nothing raises, what is left of a sequence of writes goes on from what the first ones stored. -/
theorem writeBytes_after (s : State) (a : Nat) {vs : List Byte} (hlen : vs.length ≤ 4096) {n : Nat} (hn : n ≤ vs.length)
    (h : ∀ k, k < n → s.writeRaises (a + k) = none) :
    ∃ t, writeBytes s a vs = writeBytes t (a + n) (vs.drop n) ∧ s.Stored a vs n t := by
  induction n with
  | zero => exact ⟨s, rfl, .zero s a vs⟩
  | succ n ih =>
    obtain ⟨t, ht, hstored⟩ := ih (by omega) fun k hk => h k (by omega)
    have hraise : t.writeRaises (a + n) = none := by rw [State.writeRaises_congr hstored.cfg, h n (by omega)]
    obtain ⟨u, hu, hbyte⟩ := State.memWrite_written hraise vs[n]
    refine ⟨u, ?_, hstored.succ (by omega) (List.getElem?_eq_getElem hn) hu hbyte⟩
    rw [ht, List.drop_eq_getElem_cons hn, writeBytes, hu, Nat.add_assoc]

theorem writeBytes_done (s : State) (a : Nat) {vs : List Byte} (hlen : vs.length ≤ 4096)
    (h : ∀ k, k < vs.length → s.writeRaises (a + k) = none) :
    ∃ t, writeBytes s a vs = .done t ∧ s.Stored a vs vs.length t := by
  obtain ⟨t, ht, hstored⟩ := writeBytes_after s a hlen le_rfl h
  rw [List.drop_length] at ht
  exact ⟨t, ht, hstored⟩

/-- The first write that raises ends the sequence. -/
theorem writeBytes_stops (s : State) (a : Nat) {vs : List Byte} (hlen : vs.length ≤ 4096) {n : Nat} (hn : n < vs.length)
    (h : ∀ k, k < n → s.writeRaises (a + k) = none) {r : Fault} (hr : s.writeRaises (a + n) = some r) :
    ∃ t, writeBytes s a vs = .raised r t ∧ s.Stored a vs n t := by
  obtain ⟨t, ht, hstored⟩ := writeBytes_after s a hlen hn.le h
  have hraise : t.writeRaises (a + n) = some r := by rw [State.writeRaises_congr hstored.cfg, hr]
  rw [List.drop_eq_getElem_cons hn, writeBytes, State.memWrite_of_writeRaises_some hraise] at ht
  exact ⟨t, ht, hstored⟩

/-- The fault is entered over what was stored. -/
theorem State.Stored.raise_eq (h : s.Stored a vs n t) (r : Fault) :
    t.raise r = { s with mem := (t.raise r).mem, fault := some r } := by
  rw [State.raise_eq, h.frame]

end

/-! ### LD [I], Vx (rule R233) -/

section
variable {x r : Reg}

theorem regsUpTo_getElem?_val (h : r ≤ x) : (regsUpTo x)[r.val]? = some r := by
  have hlen : r.val < (regsUpTo x).length := by rw [regsUpTo_length]; exact Nat.lt_succ_of_le h
  rw [List.getElem?_eq_getElem hlen, regsUpTo_getElem]

theorem exec_storeRegs (x : Reg) (s : State) :
    exec (.storeRegs x) s = (writeBytes s s.index.toNat ((regsUpTo x).map s.reg)).answer := rfl

/-- The registers in the place of the bytes. -/
theorem State.Stored.reg {s t : State} {a n : Nat} (h : s.Stored a ((regsUpTo x).map s.reg) n t) (hn : n ≤ x.val + 1)
    (hr : r.val < n) : t.byteAt ((a + r.val) % 4096) = s.written (a + r.val) (s.reg r) := by
  refine h.byte r.val (s.reg r) hr ?_
  rw [List.getElem?_map, regsUpTo_getElem?_val (Nat.le_of_lt_succ (Nat.lt_of_lt_of_le hr hn)), Option.map_some]

end

/-- Settles O37: V0 to Vx are at most 16 bytes, so the sequence of their writes goes through, or stops at the first that
raises. -/
theorem registersAreStored : Obligations.RegistersAreStored := by
  intro x s
  have hlen : ((regsUpTo x).map s.reg).length = x.val + 1 := by rw [List.length_map, regsUpTo_length]
  refine ⟨decodeWord_encode (i := .storeRegs x) rfl, fun hall => ?_, fun j r hj hbefore hraise => ?_⟩
  · obtain ⟨t, ht, hstored⟩ := writeBytes_done s s.index.toNat (vs := (regsUpTo x).map s.reg) (by omega)
      fun k hk => hall k (by omega)
    rw [hlen] at hstored
    exact ⟨t, by rw [exec_storeRegs, ht]; rfl, hstored.frame, fun k hk => hstored.reg le_rfl hk, hstored.other⟩
  · obtain ⟨t, ht, hstored⟩ := writeBytes_stops s s.index.toNat (vs := (regsUpTo x).map s.reg) (by omega) (by omega)
      hbefore hraise
    exact ⟨t.raise r, by rw [exec_storeRegs, ht]; rfl, hstored.raise_eq r, fun k hk => hstored.reg (by omega) hk,
      hstored.other⟩

/-! ### LD Vx, [I] (rules R76, R234) -/

/-- `t` is `s` after V0 up to but not with the `n`-th register were loaded from `a`, `a + 1`, … without a raise. -/
structure State.Loaded (s : State) (a n : Nat) (t : State) : Prop where
  frame : t = { s with regs := t.regs }
  reg : ∀ k : Reg, t.reg k = if k.val < n then s.byteAt ((a + k.val) % 4096) else s.reg k

section
variable {s t : State} {a n : Nat}

theorem State.Loaded.zero (s : State) (a : Nat) : s.Loaded a 0 s := ⟨rfl, fun _ => rfl⟩

theorem State.Loaded.inRange_iff (h : s.Loaded a n t) (b : Nat) : t.InRange b ↔ s.InRange b := by
  rw [h.frame]
  rfl

theorem State.Loaded.succ (h : s.Loaded a n t) (hn : n < 16) :
    s.Loaded a (n + 1) (t.setReg ⟨n, hn⟩ (s.byteAt ((a + n) % 4096))) := by
  refine ⟨by rw [h.frame]; rfl, fun k => ?_⟩
  by_cases hk : k = ⟨n, hn⟩
  · subst hk
    simp
  · have hkn : k.val ≠ n := fun e => hk (Fin.ext e)
    rw [State.reg_setReg_other _ _ _ _ hk, h.reg k]
    exact if_congr (by omega) rfl rfl

/-- As long as every address is in range, what is left of V0 to Vx is loaded after the first ones. -/
theorem readRegs_after (s : State) (a : Nat) (x : Reg) {n : Nat} (hn : n ≤ x.val + 1)
    (h : ∀ k, k < n → s.InRange (a + k)) :
    ∃ t, readRegs s a (regsUpTo x) = readRegs t (a + n) ((regsUpTo x).drop n) ∧ s.Loaded a n t := by
  induction n with
  | zero => exact ⟨s, rfl, .zero s a⟩
  | succ n ih =>
    obtain ⟨t, ht, hloaded⟩ := ih (by omega) fun k hk => h k (by omega)
    have hlen : n < (regsUpTo x).length := by rw [regsUpTo_length]; omega
    have hread : t.memRead (a + n) = .ok (s.byteAt ((a + n) % 4096)) := by
      rw [State.memRead_inRange ((hloaded.inRange_iff _).2 (h n (by omega))), hloaded.frame]
      rfl
    refine ⟨_, ?_, hloaded.succ (by omega)⟩
    rw [ht, List.drop_eq_getElem_cons hlen, readRegs, hread, regsUpTo_getElem, Nat.add_assoc]

end

theorem exec_loadRegs (x : Reg) (s : State) :
    exec (.loadRegs x) s = (readRegs s s.index.toNat (regsUpTo x)).answer := rfl

/-- Settles O38: the addresses rise, so the last one in range puts all of them in range; otherwise the sequence of loads
stops at the first that is not. -/
theorem registersAreLoaded : Obligations.RegistersAreLoaded := by
  intro x s
  refine ⟨decodeWord_encode (i := .loadRegs x) rfl, fun hlast => ?_, fun j hj hbefore hout => ?_⟩
  · obtain ⟨t, ht, hloaded⟩ := readRegs_after s s.index.toNat x le_rfl fun k hk => hlast.mono (by omega)
    rw [← regsUpTo_length, List.drop_length] at ht
    exact ⟨t, by rw [exec_loadRegs, ht]; rfl, hloaded.frame, hloaded.reg⟩
  · obtain ⟨t, ht, hloaded⟩ := readRegs_after s s.index.toNat x (by omega) hbefore
    have hlen : j < (regsUpTo x).length := by rw [regsUpTo_length]; omega
    rw [List.drop_eq_getElem_cons hlen, readRegs,
      State.memRead_outOfRange fun hin => hout ((hloaded.inRange_iff _).1 hin)] at ht
    refine ⟨t.raise _, by rw [exec_loadRegs, ht]; rfl, ?_, hloaded.reg⟩
    rw [State.raise_eq, hloaded.frame]

end Sys2Proof.Machine
end

section
/-! The display (44_display.md): CLS, and DRW as the sequence of its dots, each drawn from the origin it sees, up to the first row that cannot be read. -/
namespace Sys2Proof.Machine

/-! ### CLS (rule R260) -/

theorem exec_cls (z : Nib) (s : State) :
    exec (.cls z) s = .next ((s.setFb (Vector.replicate 2048 false)).setRedraw true) := rfl

/-- Settles O39: the framebuffer is replaced by one that is off everywhere. -/
theorem clsClearsTheFramebuffer : Obligations.ClsClearsTheFramebuffer := fun z s =>
  ⟨decodeWord_encode (i := .cls z) rfl, _, exec_cls z s, rfl, fun _ hk => Vector.getElem_replicate hk⟩

/-! ### The dots of a sprite and the cells they fall on (rules R263, R264, R266) -/

section
variable {s t : State} {ox oy : Byte} {j k n px py qx qy : Nat}

theorem State.dotOn_iff : s.dotOn ox oy k px py = true ↔ (ox.toNat + k % 8) % 256 = px ∧ (oy.toNat + k / 8) % 256 = py ∧
    (s.byteAt ((s.index.toNat + k / 8) % 4096)).getLsbD (7 - k % 8) = true := by
  rw [State.dotOn, Bool.and_eq_true, decide_eq_true_iff, and_assoc]

/-- A dot falls on one cell. -/
theorem State.dotOn_unique (h : s.dotOn ox oy k px py = true) (h' : s.dotOn ox oy k qx qy = true) : px = qx ∧ py = qy := by
  obtain ⟨hx, hy, -⟩ := State.dotOn_iff.1 h
  obtain ⟨hx', hy', -⟩ := State.dotOn_iff.1 h'
  exact ⟨hx.symm.trans hx', hy.symm.trans hy'⟩

theorem State.dotHits_iff_cell (hx : px < 64) (hy : py < 32) (h : s.dotOn ox oy k px py = true) :
    s.dotHits ox oy k ↔ s.cell (px + py * 64) = true := by
  refine ⟨fun ⟨qx, qy, _, _, h', hcell⟩ => ?_, fun hcell => ⟨px, py, hx, hy, h, hcell⟩⟩
  obtain ⟨rfl, rfl⟩ := State.dotOn_unique h h'
  exact hcell

/-- A cell's column and row in the sprite number the dot that falls on it. -/
theorem State.spriteOn_iff_dotOn (hn : n ≤ 15) (hx : px < 64) (hy : py < 32) :
    s.spriteOn ox oy n px py = true ↔ ∃ k, k < 8 * n ∧ s.dotOn ox oy k px py = true := by
  have hox := ox.isLt
  have hoy := oy.isLt
  rw [State.spriteOn, Bool.and_eq_true, decide_eq_true_iff]
  constructor
  · rintro ⟨⟨hc, hr⟩, hbit⟩
    refine ⟨8 * ((py + 256 - oy.toNat) % 256) + (px + 256 - ox.toNat) % 256, by omega, ?_⟩
    rw [State.dotOn_iff, Nat.mul_add_div (by decide), Nat.mul_add_mod, Nat.div_eq_of_lt hc, Nat.mod_eq_of_lt hc]
    exact ⟨by omega, by omega, hbit⟩
  · rintro ⟨k, hk, hdot⟩
    obtain ⟨hx', hy', hbit⟩ := State.dotOn_iff.1 hdot
    have hc : (px + 256 - ox.toNat) % 256 = k % 8 := by omega
    have hr : (py + 256 - oy.toNat) % 256 = k / 8 := by omega
    rw [hc, hr]
    exact ⟨by omega, hbit⟩

theorem State.collides_iff_dotHits (hn : n ≤ 15) : s.collides ox oy n ↔ ∃ k, k < 8 * n ∧ s.dotHits ox oy k := by
  constructor
  · rintro ⟨px, py, hx, hy, hon, hcell⟩
    obtain ⟨k, hk, hdot⟩ := (State.spriteOn_iff_dotOn hn hx hy).1 hon
    exact ⟨k, hk, px, py, hx, hy, hdot, hcell⟩
  · rintro ⟨k, hk, px, py, hx, hy, hdot, hcell⟩
    exact ⟨px, py, hx, hy, (State.spriteOn_iff_dotOn hn hx hy).2 ⟨k, hk, hdot⟩, hcell⟩

end

/-! ### The dots drawn from origins that may move -/

/-- Some of the first `n` dots, dot `k` drawn from the origin `o k`, is set and falls on the cell (x, y). -/
def State.trailOn (s : State) (o : Nat → Byte × Byte) (n x y : Nat) : Bool :=
  (List.range n).any fun k => s.dotOn (o k).1 (o k).2 k x y

/-- Some of the first `n` dots, dot `k` drawn from the origin `o k`, falls on a lit cell. -/
def State.trailHits (s : State) (o : Nat → Byte × Byte) (n : Nat) : Prop := ∃ k, k < n ∧ s.dotHits (o k).1 (o k).2 k

/-- A coordinate that stays or goes up by one. -/
def StaysOrRises (a b : Byte) : Prop := a.toNat ≤ b.toNat ∧ b.toNat ≤ a.toNat + 1

theorem StaysOrRises.refl (a : Byte) : StaysOrRises a a := ⟨le_rfl, Nat.le_succ _⟩

/-- The origin stays, or moves one cell right, down or both, once. -/
def MovesOnce (o : Nat → Byte × Byte) : Prop :=
  ∀ j k, j < k → StaysOrRises (o j).1 (o k).1 ∧ StaysOrRises (o j).2 (o k).2

section
variable {s : State} {o : Nat → Byte × Byte} {j k n px py : Nat}

theorem State.trailOn_iff : s.trailOn o n px py = true ↔ ∃ k, k < n ∧ s.dotOn (o k).1 (o k).2 k px py = true := by
  simp [State.trailOn]

theorem State.trailOn_succ : s.trailOn o (n + 1) px py = (s.trailOn o n px py || s.dotOn (o n).1 (o n).2 n px py) := by
  simp [State.trailOn, List.range_succ]

theorem State.trailHits_succ : s.trailHits o (n + 1) ↔ s.trailHits o n ∨ s.dotHits (o n).1 (o n).2 n := by
  simp only [State.trailHits, Nat.lt_succ_iff_lt_or_eq, or_and_right, exists_or, exists_eq_left]

/-- An origin that moves with the order of the dots brings none of them back to a cell of an earlier one. -/
theorem MovesOnce.dotOn_fresh (ho : MovesOnce o) (hjk : j < k) (hk : k < 120)
    (h : s.dotOn (o j).1 (o j).2 j px py = true) : s.dotOn (o k).1 (o k).2 k px py = false := by
  rw [Bool.eq_false_iff]
  intro h'
  obtain ⟨hx, hy, -⟩ := State.dotOn_iff.1 h
  obtain ⟨hx', hy', -⟩ := State.dotOn_iff.1 h'
  obtain ⟨⟨hleftx, hrightx⟩, hlefty, hrighty⟩ := ho j k hjk
  omega

theorem MovesOnce.trailOn_fresh (ho : MovesOnce o) (hk : k < 120) (h : s.dotOn (o k).1 (o k).2 k px py = true) :
    s.trailOn o k px py = false := by
  rw [Bool.eq_false_iff]
  intro hon
  obtain ⟨j, hjk, hj⟩ := State.trailOn_iff.1 hon
  exact absurd h (Bool.eq_false_iff.1 (ho.dotOn_fresh hjk hk hj))

end

/-! ### Drawing one dot (rules R264, R265, R267) -/

section
variable {s t : State} {x y : Reg} {latched : Byte × Byte} {o : Nat → Byte × Byte} {ox oy : Byte} {k n N : Nat}

@[simp] theorem State.noteCollision_fb (s : State) (k : Nat) : (s.noteCollision k).fb = s.fb := by
  rw [State.noteCollision]
  split <;> rfl

@[simp] theorem State.noteCollision_cell (s : State) (k j : Nat) : (s.noteCollision k).cell j = s.cell j := by
  rw [State.cell, State.noteCollision_fb, State.cell]

theorem State.noteCollision_reg_VF (s : State) (k : Nat) :
    (s.noteCollision k).reg VF = if s.cell k = true then 1 else s.reg VF := by
  rw [State.noteCollision]
  split <;> simp

@[simp] theorem State.flipCell_reg (s : State) (k : Nat) (r : Reg) : (s.flipCell k).reg r = s.reg r := rfl

/-- A dot flips the cell of the grid on which it falls, or does nothing. -/
theorem drawDot_cases (h : t.origin x y latched = (ox, oy)) :
    (∃ px py, px < 64 ∧ py < 32 ∧ s.dotOn ox oy k px py = true ∧
      drawDot x y latched s t k = (t.noteCollision (px + py * 64)).flipCell (px + py * 64)) ∨
    ((∀ px py, px < 64 → py < 32 → s.dotOn ox oy k px py = false) ∧ drawDot x y latched s t k = t) := by
  rw [drawDot, drawCell, h]
  dsimp only
  split_ifs with hclip hbit
  · refine .inr ⟨fun px py hx hy => Bool.eq_false_iff.2 fun hdot => ?_, rfl⟩
    obtain ⟨hx', hy', -⟩ := State.dotOn_iff.1 hdot
    omega
  · exact .inl ⟨_, _, by omega, by omega, State.dotOn_iff.2 ⟨rfl, rfl, hbit⟩, rfl⟩
  · refine .inr ⟨fun px py _ _ => Bool.eq_false_iff.2 fun hdot => ?_, rfl⟩
    obtain ⟨-, -, hset⟩ := State.dotOn_iff.1 hdot
    exact hbit hset

/-! ### Drawing the dots in order (rule R262) -/

/-- `t` is `s` after VF was reset and the first `n` dots were drawn, dot `k` from the origin `o k`. -/
structure State.Drawn (s : State) (o : Nat → Byte × Byte) (n : Nat) (t : State) : Prop where
  frame : s.DrawFrame t
  cell : ∀ px py, px < 64 → py < 32 → t.cell (px + py * 64) = (s.cell (px + py * 64) != s.trailOn o n px py)
  flag_of_hit : s.trailHits o n → t.reg VF = 1
  flag_of_no_hit : ¬ s.trailHits o n → t.reg VF = 0

theorem State.setReg_VF_frame (s : State) (v : Byte) : s.DrawFrame (s.setReg VF v) :=
  ⟨rfl, fun _ hq => State.reg_setReg_other _ _ _ _ hq⟩

theorem State.Drawn.zero (s : State) (o : Nat → Byte × Byte) : s.Drawn o 0 (s.setReg VF 0) where
  frame := s.setReg_VF_frame 0
  cell _ _ _ _ := (Bool.xor_false _).symm
  flag_of_hit := fun ⟨_, hk, _⟩ => absurd hk (Nat.not_lt_zero _)
  flag_of_no_hit _ := s.reg_setReg_same VF 0

/-- A dot that falls on no cell of the grid. -/
theorem State.Drawn.succ_of_off (h : s.Drawn o n t)
    (hoff : ∀ px py, px < 64 → py < 32 → s.dotOn (o n).1 (o n).2 n px py = false) : s.Drawn o (n + 1) t := by
  have hhits : s.trailHits o (n + 1) ↔ s.trailHits o n := by
    rw [State.trailHits_succ, or_iff_left]
    rintro ⟨px, py, hx, hy, hdot, -⟩
    exact absurd hdot (Bool.eq_false_iff.1 (hoff px py hx hy))
  refine ⟨h.frame, fun px py hx hy => ?_, fun hhit => h.flag_of_hit (hhits.1 hhit),
    fun hhit => h.flag_of_no_hit fun hhit' => hhit (hhits.2 hhit')⟩
  rw [h.cell px py hx hy, State.trailOn_succ, hoff px py hx hy, Bool.or_false]

/-- A dot that falls on a cell of the grid on which no earlier dot fell. -/
theorem State.Drawn.succ_of_on {px py : Nat} (h : s.Drawn o n t) (hx : px < 64) (hy : py < 32)
    (hdot : s.dotOn (o n).1 (o n).2 n px py = true) (hfresh : s.trailOn o n px py = false) :
    s.Drawn o (n + 1) ((t.noteCollision (px + py * 64)).flipCell (px + py * 64)) := by
  have hcell : t.cell (px + py * 64) = s.cell (px + py * 64) := by rw [h.cell px py hx hy, hfresh, Bool.bne_false]
  refine ⟨h.frame.trans ((t.noteCollision_frame _).trans (State.flipCell_frame _ _)), fun qx qy hqx hqy => ?_,
    fun hhit => ?_, fun hhit => ?_⟩
  · rw [State.flipCell_cell _ _ _ (by omega), State.noteCollision_cell, State.noteCollision_cell, State.trailOn_succ]
    by_cases hq : qx = px ∧ qy = py
    · obtain ⟨rfl, rfl⟩ := hq
      rw [if_pos rfl, hcell, hdot, Bool.or_true, Bool.bne_true]
    · have hoff : s.dotOn (o n).1 (o n).2 n qx qy = false :=
        Bool.eq_false_iff.2 fun hon => hq (State.dotOn_unique hon hdot)
      rw [if_neg (by omega), h.cell qx qy hqx hqy, hoff, Bool.or_false]
  · rw [State.flipCell_reg, State.noteCollision_reg_VF, hcell]
    rw [State.trailHits_succ, State.dotHits_iff_cell hx hy hdot] at hhit
    split_ifs with hlit
    · rfl
    · exact h.flag_of_hit (hhit.resolve_right hlit)
  · rw [State.trailHits_succ, State.dotHits_iff_cell hx hy hdot, not_or] at hhit
    rw [State.flipCell_reg, State.noteCollision_reg_VF, hcell, if_neg hhit.2, h.flag_of_no_hit hhit.1]

theorem State.Drawn.succ (h : s.Drawn o n t) (ho : MovesOnce o) (hn : n < 120) (horigin : t.origin x y latched = o n) :
    s.Drawn o (n + 1) (drawDot x y latched s t n) := by
  obtain ⟨px, py, hx, hy, hdot, heq⟩ | ⟨hoff, heq⟩ := drawDot_cases (s := s) (k := n) horigin
  · rw [heq]
    exact h.succ_of_on hx hy hdot (ho.trailOn_fresh hn hdot)
  · rw [heq]
    exact h.succ_of_off hoff

/-- The state in which DRW has drawn the first `n` dots. -/
def State.afterDots (s : State) (x y : Reg) (n : Nat) : State :=
  (List.range n).foldl (drawDot x y (s.reg x, s.reg y) s) (s.setReg VF 0)

theorem State.afterDots_succ (s : State) (x y : Reg) (n : Nat) :
    s.afterDots x y (n + 1) = drawDot x y (s.reg x, s.reg y) s (s.afterDots x y n) n := by
  rw [State.afterDots, List.range_succ, List.foldl_append, State.afterDots]
  rfl

/-- The dots are drawn from the origins `o` when each state on the way shows the next dot its origin. -/
theorem State.afterDots_drawn (ho : MovesOnce o) (hN : N ≤ 120)
    (horigin : ∀ k t, k < N → s.Drawn o k t → t.origin x y (s.reg x, s.reg y) = o k) :
    s.Drawn o N (s.afterDots x y N) := by
  induction N with
  | zero => exact .zero s o
  | succ N ih =>
    have hdrawn := ih (by omega) fun k t hk => horigin k t (by omega)
    rw [State.afterDots_succ]
    exact hdrawn.succ ho (by omega) (horigin N _ N.lt_succ_self hdrawn)

/-! ### A fixed origin, and one that follows VF (rule R270) -/

theorem State.origin_of_fixed (hfixed : s.FixedOrigin x y) (hframe : s.DrawFrame t) :
    t.origin x y (s.reg x, s.reg y) = (s.reg x, s.reg y) := by
  rw [State.origin, hframe.cfg]
  obtain hsnapshot | ⟨hx, hy⟩ := hfixed
  · rw [hsnapshot]
  · rw [hframe.2 x hx, hframe.2 y hy]
    cases s.cfg.vfTiming <;> rfl

theorem State.afterDots_drawn_of_fixed (hfixed : s.FixedOrigin x y) (hN : N ≤ 120) :
    s.Drawn (fun _ => (s.reg x, s.reg y)) N (s.afterDots x y N) :=
  State.afterDots_drawn (fun _ _ _ => ⟨.refl _, .refl _⟩) hN
    fun _ _ _ hdrawn => State.origin_of_fixed hfixed hdrawn.frame

/-- A coordinate of the origin where VF counts as `vf`. -/
def State.originWith (s : State) (vf : Byte) (r : Reg) : Byte := if r = VF then vf else s.reg r

/-- The origin where VF is 0 up to and with dot `m`, and 1 after it. -/
def State.originPast (s : State) (x y : Reg) (m k : Nat) : Byte × Byte :=
  let vf : Byte := if k ≤ m then 0 else 1
  (s.originWith vf x, s.originWith vf y)

theorem State.originPast_of_le {m : Nat} (h : k ≤ m) : s.originPast x y m k = (s.originWith 0 x, s.originWith 0 y) := by
  rw [State.originPast, if_pos h]

theorem State.originPast_of_lt {m : Nat} (h : m < k) : s.originPast x y m k = (s.originWith 1 x, s.originWith 1 y) := by
  rw [State.originPast, if_neg (Nat.not_le.2 h)]

theorem StaysOrRises.originWith {a b : Byte} (h : StaysOrRises a b) (s : State) (r : Reg) :
    StaysOrRises (s.originWith a r) (s.originWith b r) := by
  rw [State.originWith, State.originWith]
  split_ifs
  · exact h
  · exact .refl _

theorem State.originPast_movesOnce (s : State) (x y : Reg) (m : Nat) : MovesOnce (s.originPast x y m) := by
  intro j k hjk
  have hvf : StaysOrRises (if j ≤ m then 0 else 1) (if k ≤ m then 0 else 1) := by
    split_ifs with hj hk hk
    · exact .refl 0
    · exact ⟨by decide, by decide⟩
    · omega
    · exact .refl 1
  exact ⟨hvf.originWith s x, hvf.originWith s y⟩

theorem State.origin_of_sequential (hsequential : s.cfg.vfTiming = .sequential) (hframe : s.DrawFrame t) :
    t.origin x y latched = (s.originWith (t.reg VF) x, s.originWith (t.reg VF) y) := by
  have hreg (r : Reg) : t.reg r = s.originWith (t.reg VF) r := by
    rw [State.originWith]
    split_ifs with hr
    · rw [hr]
    · exact hframe.2 r hr
  rw [State.origin, hframe.cfg, hsequential, ← hreg x, ← hreg y]

/-- Under sequential timing the origin moves with VF, past the first dot that falls on a lit cell; `m` is that dot, or the
number of dots where there is none. -/
theorem State.afterDots_drawn_of_sequential {m : Nat} (hsequential : s.cfg.vfTiming = .sequential) (hN : N ≤ 120)
    (hbefore : ∀ k, k < m → ¬ s.dotHits (s.originWith 0 x) (s.originWith 0 y) k)
    (hat : m < N → s.dotHits (s.originWith 0 x) (s.originWith 0 y) m) :
    s.Drawn (s.originPast x y m) N (s.afterDots x y N) := by
  refine State.afterDots_drawn (s.originPast_movesOnce x y m) hN fun k t hk hdrawn => ?_
  rw [State.origin_of_sequential hsequential hdrawn.frame]
  by_cases hkm : k ≤ m
  · have hflag : t.reg VF = 0 := hdrawn.flag_of_no_hit fun ⟨j, hj, hhit⟩ => by
      rw [State.originPast_of_le (by omega)] at hhit
      exact hbefore j (by omega) hhit
    rw [hflag, State.originPast_of_le hkm]
  · have hflag : t.reg VF = 1 := hdrawn.flag_of_hit ⟨m, by omega, by
      rw [State.originPast_of_le le_rfl]
      exact hat (by omega)⟩
    rw [hflag, State.originPast_of_lt (by omega)]

end

/-! ### DRW up to the first row that cannot be read (rule R261) -/

section
variable {s t : State} {x y : Reg} {latched : Byte × Byte} {n : Nib} {a row j : Nat}

theorem drawRows_add (h : drawRows x y latched a row s = .done t) (b : Nat) :
    drawRows x y latched (a + b) row s = drawRows x y latched b (row + a) t := by
  induction a generalizing row s with
  | zero =>
    obtain rfl : s = t := by injection h
    rw [Nat.zero_add, Nat.add_zero]
  | succ a ih =>
    rw [Nat.succ_add_eq_add_succ, Nat.add_succ, drawRows]
    rw [drawRows] at h
    cases hread : s.memRead (s.dataAddr + row) with
    | error r =>
      rw [hread] at h
      cases h
    | ok v =>
      rw [hread] at h
      dsimp only
      rw [ih h, Nat.add_right_comm, Nat.add_assoc]

/-- The rows before the first one that cannot be read. -/
theorem State.exists_readable_rows (s : State) (n : Nat) :
    ∃ j, j ≤ n ∧ s.RowsInRange j ∧ (j < n → ¬ s.InRange (s.index.toNat + j)) := by
  classical
  by_cases h : ∃ r, r < n ∧ ¬ s.InRange (s.index.toNat + r)
  · obtain ⟨hlt, hout⟩ := Nat.find_spec h
    exact ⟨Nat.find h, hlt.le, fun r hr => by_contra fun hr' => Nat.find_min h hr ⟨hr.trans hlt, hr'⟩, fun _ => hout⟩
  · exact ⟨n, le_rfl, fun r hr => by_contra fun hr' => h ⟨r, hr, hr'⟩, fun hn => absurd hn (Nat.lt_irrefl n)⟩

/-- The rows that can be read, as dots. -/
theorem drawRows_readable (hrows : s.RowsInRange j) :
    drawRows x y (s.reg x, s.reg y) j 0 (s.setReg VF 0) = .done (s.afterDots x y (8 * j)) := by
  rw [drawRows_dots x y _ s j 0 _ (s.setReg_VF_frame 0) (by rwa [Nat.zero_add]), State.afterDots, List.range_eq_range']

theorem State.afterDots_frame (hrows : s.RowsInRange j) : s.DrawFrame (s.afterDots x y (8 * j)) := by
  have h := drawRows_frame x y (s.reg x, s.reg y) j 0 (s.setReg VF 0)
  rw [drawRows_readable hrows] at h
  exact (s.setReg_VF_frame 0).trans h

theorem exec_drw (x y : Reg) (n : Nib) (s : State) : exec (.drw x y n) s =
    ((drawRows x y (s.reg x, s.reg y) n.toNat 0 (s.setReg VF 0)).andThen fun t => t.setRedraw true).answer := rfl

theorem exec_drw_readable (hrows : s.RowsInRange n.toNat) :
    exec (.drw x y n) s = .next ((s.afterDots x y (8 * n.toNat)).setRedraw true) := by
  rw [exec_drw, drawRows_readable hrows]
  rfl

theorem exec_drw_raises (hj : j < n.toNat) (hrows : s.RowsInRange j) (hout : ¬ s.InRange (s.index.toNat + j)) :
    exec (.drw x y n) s = .next ((s.afterDots x y (8 * j)).raise (.addressOutOfRange (s.index.toNat + j))) := by
  obtain ⟨b, hb⟩ := Nat.exists_eq_add_of_lt hj
  have hframe := State.afterDots_frame (x := x) (y := y) hrows
  have hread : (s.afterDots x y (8 * j)).memRead ((s.afterDots x y (8 * j)).dataAddr + (0 + j)) =
      .error (.addressOutOfRange (s.index.toNat + j)) := by
    rw [State.dataAddr, hframe.index, Nat.zero_add]
    exact State.memRead_outOfRange (by rwa [State.InRange, hframe.cfg])
  rw [exec_drw, hb, Nat.add_assoc, drawRows_add (drawRows_readable hrows), drawRows, hread]
  rfl

/-- A draw whose rows could all be read, as the statements write it. -/
theorem State.DrawFrame.setRedraw_eq (h : s.DrawFrame t) : t.setRedraw true =
    { s with regs := s.regs.set 15 ((t.setRedraw true).reg VF), fb := (t.setRedraw true).fb, redraw := true } := by
  have hregs : t.regs = s.regs.set 15 (t.reg VF) := by
    apply Vector.ext
    intro i hi
    rw [Vector.getElem_set]
    split_ifs with h15
    · subst h15
      rfl
    · exact h.2 ⟨i, hi⟩ fun e => h15 (congrArg Fin.val e).symm
  calc t.setRedraw true = { t with redraw := true } := rfl
    _ = { s with regs := t.regs, fb := t.fb, redraw := true } := by rw [h.1]
    _ = _ := by rw [hregs]; rfl

end

/-- Settles O42: both draws draw the dots of the `j` rows; the one sets redraw, the other raises. -/
theorem drawRaisesAtFirstUnreadableRow : Obligations.DrawRaisesAtFirstUnreadableRow := by
  intro x y n j s hj hrows hout
  refine ⟨_, exec_drw_readable hrows, ?_⟩
  rw [exec_drw_raises hj hrows hout, State.raise_eq, ← (State.afterDots_frame (x := x) (y := y) hrows).redraw]
  rfl

/-! ### A whole sprite from one origin -/

section
variable {s t : State} {x y : Reg} {o : Nat → Byte × Byte} {ox oy : Byte} {r px py : Nat}

@[simp] theorem State.cell_setRedraw (s : State) (b : Bool) (k : Nat) : (s.setRedraw b).cell k = s.cell k := rfl

theorem nib_toNat_le (n : Nib) : n.toNat ≤ 15 := Nat.le_of_lt_succ n.isLt

theorem State.trailOn_eq_spriteOn (hr : r ≤ 15) (ho : ∀ k, k < 8 * r → o k = (ox, oy)) (hx : px < 64) (hy : py < 32) :
    s.trailOn o (8 * r) px py = s.spriteOn ox oy r px py := by
  rw [Bool.eq_iff_iff, State.trailOn_iff, State.spriteOn_iff_dotOn hr hx hy]
  exact exists_congr fun k => and_congr_right fun hk => by rw [ho k hk]

theorem State.trailHits_iff_collides (hr : r ≤ 15) (ho : ∀ k, k < 8 * r → o k = (ox, oy)) :
    s.trailHits o (8 * r) ↔ s.collides ox oy r := by
  rw [State.collides_iff_dotHits hr]
  exact exists_congr fun k => and_congr_right fun hk => by rw [ho k hk]

/-- A sprite drawn whole from one origin. -/
structure State.DrawnAt (s : State) (ox oy : Byte) (r : Nat) (t : State) : Prop where
  cell : ∀ px py, px < 64 → py < 32 → t.cell (px + py * 64) = (s.cell (px + py * 64) != s.spriteOn ox oy r px py)
  flag_of_collides : s.collides ox oy r → t.reg VF = 1
  flag_of_not_collides : ¬ s.collides ox oy r → t.reg VF = 0

theorem State.Drawn.drawnAt (h : s.Drawn o (8 * r) t) (hr : r ≤ 15) (ho : ∀ k, k < 8 * r → o k = (ox, oy)) :
    s.DrawnAt ox oy r t where
  cell px py hx hy := by rw [h.cell px py hx hy, State.trailOn_eq_spriteOn hr ho hx hy]
  flag_of_collides hc := h.flag_of_hit ((State.trailHits_iff_collides hr ho).2 hc)
  flag_of_not_collides hc := h.flag_of_no_hit fun hhit => hc ((State.trailHits_iff_collides hr ho).1 hhit)

theorem State.afterDots_drawnAt_of_fixed (hfixed : s.FixedOrigin x y) (hr : r ≤ 15) :
    s.DrawnAt (s.reg x) (s.reg y) r (s.afterDots x y (8 * r)) :=
  (State.afterDots_drawn_of_fixed hfixed (by omega)).drawnAt hr fun _ _ => rfl

end

/-- Settles O40: the dots are drawn from one origin, and none of them falls where an earlier one fell. -/
theorem drawFlipsExactlyTheSprite : Obligations.DrawFlipsExactlyTheSprite := by
  intro x y n s hfixed hrows on
  have hdrawn := State.afterDots_drawnAt_of_fixed hfixed (nib_toNat_le n)
  exact ⟨decodeWord_encode (i := .drw x y n) rfl, _, exec_drw_readable hrows,
    (State.afterDots_frame hrows).setRedraw_eq, hdrawn.cell, hdrawn.flag_of_collides, hdrawn.flag_of_not_collides⟩

/-! ### The same sprite a second time (rule R268) -/

section
variable {s t u : State} {x y : Reg} {n : Nib} {ox oy : Byte} {j r px py : Nat}

theorem State.fb_eq_of_cell (h : ∀ px py, px < 64 → py < 32 → t.cell (px + py * 64) = s.cell (px + py * 64)) :
    t.fb = s.fb := by
  apply Vector.ext
  intro k hk
  have hcell := h (k % 64) (k / 64) (by omega) (by omega)
  rw [show k % 64 + k / 64 * 64 = k by omega] at hcell
  simpa [State.cell, hk] using hcell

theorem State.spriteOn_congr (hindex : t.index = s.index)
    (hbyte : ∀ i, i < r → t.byteAt ((s.index.toNat + i) % 4096) = s.byteAt ((s.index.toNat + i) % 4096)) :
    t.spriteOn ox oy r px py = s.spriteOn ox oy r px py := by
  rw [State.spriteOn, State.spriteOn, hindex]
  by_cases hin : (px + 256 - ox.toNat) % 256 < 8 ∧ (py + 256 - oy.toNat) % 256 < r
  · rw [hbyte _ hin.2]
  · rw [decide_eq_false hin, Bool.false_and, Bool.false_and]

/-! `s` is drawn on, which gives `d`; `t` is a state that shows the framebuffer of `d` and the sprite of `s`. -/

section
variable {d : State} (hdrawn : s.DrawnAt ox oy r d) (hfb : t.fb = d.fb)
  (hon : ∀ px py, t.spriteOn ox oy r px py = s.spriteOn ox oy r px py)
include hdrawn hfb hon

theorem State.DrawnAt.cell_after (hx : px < 64) (hy : py < 32) :
    t.cell (px + py * 64) = (s.cell (px + py * 64) != t.spriteOn ox oy r px py) := by
  rw [hon, ← hdrawn.cell px py hx hy, State.cell, hfb, State.cell]

/-- Drawing a sprite again flips the same cells back. -/
theorem State.DrawnAt.fb_restored (hdrawn' : t.DrawnAt ox oy r u) : u.fb = s.fb :=
  State.fb_eq_of_cell fun px py hx hy => by
    rw [hdrawn'.cell px py hx hy, hdrawn.cell_after hfb hon hx hy, Bool.bne_assoc, bne_self_eq_false, Bool.bne_false]

/-- The lit cells under the sprite are now those that the draw turned on. -/
theorem State.DrawnAt.collides_iff_turnsOn : t.collides ox oy r ↔ s.turnsOn ox oy r := by
  refine exists_congr fun px => exists_congr fun py => and_congr_right fun hx => and_congr_right fun hy => ?_
  rw [← hon]
  refine and_congr_right fun hset => ?_
  rw [hdrawn.cell_after hfb hon hx hy, hset, Bool.bne_true, Bool.not_eq_true']

end

/-- What a draw leaves in the framebuffer and in VF, whether or not a row raises. -/
theorem exec_drw_reaches (hexec : exec (.drw x y n) s = .next t) (hj : j ≤ n.toNat) (hrows : s.RowsInRange j)
    (hstop : j < n.toNat → ¬ s.InRange (s.index.toNat + j)) :
    t.fb = (s.afterDots x y (8 * j)).fb ∧ t.reg VF = (s.afterDots x y (8 * j)).reg VF := by
  obtain hlt | rfl := Nat.lt_or_eq_of_le hj
  · rw [exec_drw_raises hlt hrows (hstop hlt)] at hexec
    injection hexec with h
    subst h
    exact ⟨rfl, rfl⟩
  · rw [exec_drw_readable hrows] at hexec
    injection hexec with h
    subst h
    exact ⟨rfl, rfl⟩

end

/-- Settles O43: both draws flip the cells under the same readable rows, so the second undoes the first and meets the
cells that the first turned on. -/
theorem drawingTwiceRestoresTheFramebuffer : Obligations.DrawingTwiceRestoresTheFramebuffer := by
  intro x y n s t t' u hfixed hexec hexec' hcfg hindex hx hy hfb hbyte
  have hin (a : Nat) : t'.InRange a ↔ s.InRange a := by rw [State.InRange, State.InRange, hcfg]
  have hfixed' : t'.FixedOrigin x y := by rwa [State.FixedOrigin, hcfg]
  obtain ⟨j, hj, hrows, hstop⟩ := s.exists_readable_rows n.toNat
  have hj15 : j ≤ 15 := hj.trans (nib_toNat_le n)
  obtain ⟨hfb₁, -⟩ := exec_drw_reaches hexec hj hrows hstop
  obtain ⟨hfb₂, hflag₂⟩ := exec_drw_reaches hexec' hj (fun r hr => by rw [hin, hindex]; exact hrows r hr)
    (by rwa [hin, hindex])
  have hdrawn := State.afterDots_drawnAt_of_fixed hfixed hj15
  have hdrawn' := State.afterDots_drawnAt_of_fixed hfixed' hj15
  rw [hx, hy] at hdrawn'
  have hon (px py : Nat) : t'.spriteOn (s.reg x) (s.reg y) j px py = s.spriteOn (s.reg x) (s.reg y) j px py :=
    State.spriteOn_congr hindex fun i hi => hbyte i (hi.trans_le hj)
  have hfb' := hfb.trans hfb₁
  refine ⟨hfb₂.trans (hdrawn.fb_restored hfb' hon hdrawn'), fun hall => ?_⟩
  obtain rfl : j = n.toNat := (Nat.lt_or_eq_of_le hj).resolve_left fun hlt => hstop hlt (hall j hlt)
  rw [hflag₂, ← hdrawn.collides_iff_turnsOn hfb' hon]
  exact ⟨hdrawn'.flag_of_collides, hdrawn'.flag_of_not_collides⟩

/-! ### An origin in VF under sequential timing (rule R270) -/

section
variable {s : State} {x y : Reg} {ox oy : Byte} {N r m px py : Nat}

theorem State.exists_firstHit (hr : r ≤ 15) (h : s.collides ox oy r) : ∃ m, s.FirstHit ox oy r m := by
  classical
  have hhit := (State.collides_iff_dotHits hr).1 h
  obtain ⟨hlt, hspec⟩ := Nat.find_spec hhit
  exact ⟨Nat.find hhit, hlt, hspec, fun k hk hk' => Nat.find_min hhit hk ⟨hk.trans hlt, hk'⟩⟩

theorem State.FirstHit.drawn (hsequential : s.cfg.vfTiming = .sequential) (hr : r ≤ 15)
    (h : s.FirstHit (s.originWith 0 x) (s.originWith 0 y) r m) :
    s.Drawn (s.originPast x y m) (8 * r) (s.afterDots x y (8 * r)) := by
  obtain ⟨-, hhit, hbefore⟩ := h
  exact State.afterDots_drawn_of_sequential hsequential (by omega) hbefore fun _ => hhit

theorem State.FirstHit.flag (hsequential : s.cfg.vfTiming = .sequential) (hr : r ≤ 15)
    (h : s.FirstHit (s.originWith 0 x) (s.originWith 0 y) r m) : (s.afterDots x y (8 * r)).reg VF = 1 := by
  refine (h.drawn hsequential hr).flag_of_hit ⟨m, ?_⟩
  obtain ⟨hlt, hhit, -⟩ := h
  exact ⟨hlt, by rwa [State.originPast_of_le le_rfl]⟩

/-- Without a collision VF stays 0, and so does an origin in it. -/
theorem State.afterDots_drawnAt_of_not_collides (hsequential : s.cfg.vfTiming = .sequential) (hr : r ≤ 15)
    (h : ¬ s.collides (s.originWith 0 x) (s.originWith 0 y) r) :
    s.DrawnAt (s.originWith 0 x) (s.originWith 0 y) r (s.afterDots x y (8 * r)) := by
  have hmiss (k : Nat) (hk : k < 8 * r) : ¬ s.dotHits (s.originWith 0 x) (s.originWith 0 y) k := fun hhit =>
    h ((State.collides_iff_dotHits hr).2 ⟨k, hk, hhit⟩)
  have hdrawn := State.afterDots_drawn_of_sequential (N := 8 * r) hsequential (by omega) hmiss
    fun hlt => absurd hlt (Nat.lt_irrefl _)
  exact hdrawn.drawnAt hr fun _ hk => State.originPast_of_le hk.le

theorem State.trailOn_originPast_iff (hm : m < N) : s.trailOn (s.originPast x y m) N px py = true ↔
    (∃ k, k ≤ m ∧ s.dotOn (s.originWith 0 x) (s.originWith 0 y) k px py = true) ∨
    (∃ k, m < k ∧ k < N ∧ s.dotOn (s.originWith 1 x) (s.originWith 1 y) k px py = true) := by
  rw [State.trailOn_iff]
  constructor
  · rintro ⟨k, hk, hdot⟩
    obtain hkm | hkm := le_or_gt k m
    · rw [State.originPast_of_le hkm] at hdot
      exact .inl ⟨k, hkm, hdot⟩
    · rw [State.originPast_of_lt hkm] at hdot
      exact .inr ⟨k, hkm, hk, hdot⟩
  · rintro (⟨k, hkm, hdot⟩ | ⟨k, hkm, hk, hdot⟩)
    · exact ⟨k, by omega, by rwa [State.originPast_of_le hkm]⟩
    · exact ⟨k, hk, by rwa [State.originPast_of_lt hkm]⟩

end

/-- Settles O41: a draw that collides has a first hit, which sets VF; one that does not draws the whole sprite from the
origin that counts VF as 0. -/
theorem sequentialOriginInVFReadsZero : Obligations.SequentialOriginInVFReadsZero := by
  intro x y n s hsequential hrows ox oy
  refine ⟨_, exec_drw_readable hrows, (State.afterDots_frame hrows).setRedraw_eq, ?_⟩
  rw [State.reg_setRedraw]
  by_cases hcollides : s.collides ox oy n.toNat
  · obtain ⟨m, hfirst⟩ := State.exists_firstHit (nib_toNat_le n) hcollides
    have hflag := State.FirstHit.flag hsequential (nib_toNat_le n) hfirst
    exact ⟨.inr hflag, iff_of_true hcollides hflag, fun hzero => absurd (hzero.symm.trans hflag) (by decide)⟩
  · have hdrawn := State.afterDots_drawnAt_of_not_collides hsequential (nib_toNat_le n) hcollides
    have hflag := hdrawn.flag_of_not_collides hcollides
    exact ⟨.inl hflag, iff_of_false hcollides fun hone => absurd (hflag.symm.trans hone) (by decide), fun _ => hdrawn.cell⟩

/-- Settles O55: VF, and with it the origin, moves past the first hit, and no dot falls on a cell of an earlier one. -/
theorem sequentialOriginInVFBecomesOneAtFirstHit : Obligations.SequentialOriginInVFBecomesOneAtFirstHit := by
  intro x y n s hsequential hrows originWith
  refine ⟨State.exists_firstHit (nib_toNat_le n), ?_⟩
  intro m hfirst flipped
  have hdrawn := State.FirstHit.drawn hsequential (nib_toNat_le n) hfirst
  have hframe := hdrawn.frame.setRedraw_eq
  rw [State.reg_setRedraw, State.FirstHit.flag hsequential (nib_toNat_le n) hfirst] at hframe
  refine ⟨_, exec_drw_readable hrows, hframe, fun px py hx hy => ?_⟩
  have hon : s.trailOn (s.originPast x y m) (8 * n.toNat) px py = true ↔ flipped px py :=
    State.trailOn_originPast_iff hfirst.1
  rw [State.cell_setRedraw, hdrawn.cell px py hx hy, ← hon]
  refine ⟨fun htrue => ?_, fun hfalse => ?_⟩
  · rw [htrue, Bool.bne_true]
  · rw [Bool.not_eq_true] at hfalse
    rw [hfalse, Bool.bne_false]

end Sys2Proof.Machine
end

section
/-! Timers and keys (45_timers_keys.md): each timer transfer is one write, and a key skip is read off what the key test of rule R295 answers. -/
namespace Sys2Proof.Machine

/-! ### The timer transfers (rules R290 to R292) -/

theorem exec_ldVxDt (x : Reg) (s : State) : exec (.ldVxDt x) s = .next (s.setReg x s.dt) := rfl

theorem exec_ldDtVx (x : Reg) (s : State) : exec (.ldDtVx x) s = .next (s.setDt (s.reg x)) := rfl

theorem exec_ldStVx (x : Reg) (s : State) : exec (.ldStVx x) s = .next (s.setSt (s.reg x)) := rfl

/-- Settles O44: each of the three is one write, of Vx or of a timer. -/
theorem timerTransfers : Obligations.TimerTransfers := fun x s =>
  ⟨decodeWord_encode (i := .ldVxDt x) rfl, decodeWord_encode (i := .ldDtVx x) rfl,
    decodeWord_encode (i := .ldStVx x) rfl, exec_ldVxDt x s, exec_ldDtVx x s, exec_ldStVx x s⟩

/-! ### The key test (rule R295) -/

section
variable {s : State} {v : Byte}

theorem State.pressed_of_eq_key {k : Reg} (h : v.toNat = k.val) : s.pressed v = .ok s.keys[k.val] := by
  rw [State.pressed, dif_pos (h ▸ k.isLt)]
  simp only [h]

theorem State.pressed_of_notPressed (h : 16 ≤ v.toNat) (hpolicy : s.cfg.keyOor = .notPressed) :
    s.pressed v = .ok false := by
  rw [State.pressed, dif_neg (Nat.not_lt.2 h), hpolicy]

theorem State.pressed_of_fault (h : 16 ≤ v.toNat) (hpolicy : s.cfg.keyOor = .fault) :
    s.pressed v = .error (.keyIndexOutOfRange v) := by
  rw [State.pressed, dif_neg (Nat.not_lt.2 h), hpolicy]

end

/-! ### SKP and SKNP, by the answer of the key test (rules R293, R294) -/

section
variable {s : State} {x : Reg} {b : Bool} {r : Fault}

theorem exec_skp_of_ok (h : s.pressed (s.reg x) = .ok b) : exec (.skp x) s = .next (s.skipIf b) := by
  rw [exec, execSkp, h]

theorem exec_sknp_of_ok (h : s.pressed (s.reg x) = .ok b) : exec (.sknp x) s = .next (s.skipIf (!b)) := by
  rw [exec, execSknp, h]

theorem exec_skp_of_error (h : s.pressed (s.reg x) = .error r) : exec (.skp x) s = .next (s.raise r) := by
  rw [exec, execSkp, h]

theorem exec_sknp_of_error (h : s.pressed (s.reg x) = .error r) : exec (.sknp x) s = .next (s.raise r) := by
  rw [exec, execSknp, h]

end

/-- The two skips of one test move pc in opposite cases. -/
theorem State.skipIf_not (s : State) (b : Bool) : s.skipIf (!b) = if b then s else s.advance := by
  cases b <;> rfl

/-- Settles O45: by cases of the key test, which answers the key's state, or false or a fault out of range. -/
theorem keySkipsTestTheCurrentVector : Obligations.KeySkipsTestTheCurrentVector := by
  intro x s skipped
  have hadvance : s.advance = skipped := s.advance_eq
  refine ⟨decodeWord_encode (i := .skp x) rfl, decodeWord_encode (i := .sknp x) rfl,
    fun k hkey => ?_, fun hrange hpolicy => ?_, fun hrange hpolicy => ?_⟩
  · have htest := State.pressed_of_eq_key (s := s) hkey
    rw [exec_skp_of_ok htest, exec_sknp_of_ok htest, State.skipIf_not, State.skipIf, hadvance]
    exact ⟨rfl, rfl⟩
  · have htest := State.pressed_of_notPressed hrange hpolicy
    rw [exec_skp_of_ok htest, exec_sknp_of_ok htest, State.skipIf_not, hadvance]
    exact ⟨rfl, rfl⟩
  · have htest := State.pressed_of_fault hrange hpolicy
    exact ⟨exec_skp_of_error htest, exec_sknp_of_error htest⟩

end Sys2Proof.Machine
end

section
/-! The unrecognized encodings (46_unrecognized.md): they decode to the no-ops, and a no-op changes nothing. -/
namespace Sys2Proof.Machine

/-- The thirteen instructions of rules R320 to R323. -/
def isNoOp : Instr → Bool
  | .nop0 _ _ | .nopE _ _ | .nopF _ _ => true
  | .nop8n6 _ _ | .nop8n7 _ _ | .nop8n8 _ _ | .nop8n9 _ _ | .nop8nA _ _ | .nop8nB _ _ | .nop8nC _ _ | .nop8nD _ _
  | .nop8nE _ _ | .nop8nF _ _ => true
  | _ => false

theorem exec_of_isNoOp {i : Instr} (h : isNoOp i = true) (s : State) : exec i s = .next s := by
  cases i with
  | nop0 | nopE | nopF => rfl
  | nop8n6 | nop8n7 | nop8n8 | nop8n9 | nop8nA | nop8nB | nop8nC | nop8nD | nop8nE | nop8nF => rfl
  | _ => simp [isNoOp] at h

/-- Family 8 assigns the low nibbles 0 to 5 only (rule R320). -/
theorem isNoOp_decode8 {x y : Reg} {n : Nib} (h : 5 < n.toNat) : isNoOp (decode8 x y n) = true := by
  unfold decode8
  split
  case h_1 | h_2 | h_3 | h_4 | h_5 | h_6 => omega
  all_goals rfl

/-- Settles O47: a byte its family does not assign makes a well-formed no-op, which decodes to itself; family 8 decodes by
its low nibble. -/
theorem unrecognizedEncodingsDoNothing : Obligations.UnrecognizedEncodingsDoNothing := by
  intro x y z f s
  have nothing {i : Instr} (h : isNoOp i = true) : exec i s = .next s := exec_of_isNoOp h s
  refine ⟨fun hcls hret => ?family0, nothing rfl, fun hskp hsknp => ?familyE, nothing rfl, fun hf => ?familyF, nothing rfl,
    fun hz => ?family8, nothing rfl, nothing rfl, nothing rfl, nothing rfl, nothing rfl, nothing rfl, nothing rfl,
    nothing rfl, nothing rfl, nothing rfl⟩
  case family0 =>
    exact decodeWord_encode (i := .nop0 z f) ((Instr.wellFormed_nop0 z f).2 (by simpa [family0Bytes] using ⟨hcls, hret⟩))
  case familyE =>
    exact decodeWord_encode (i := .nopE x f) ((Instr.wellFormed_nopE x f).2 (by simpa [familyEBytes] using ⟨hskp, hsknp⟩))
  case familyF => exact decodeWord_encode (i := .nopF x f) ((Instr.wellFormed_nopF x f).2 hf)
  case family8 =>
    have hdecode : decodeWord (0x8#4 ++ regBits x ++ regBits y ++ z) = decode8 x y z := decodeWord_family8 x y z
    rw [hdecode]
    exact nothing (isNoOp_decode8 hz)

end Sys2Proof.Machine
end

section
/-! The ways a step can end (rule R142), said once: whatever a step answers, one of them led to it. -/
namespace Sys2Proof.Machine

theorem next_unique {a : Result} {t u : State} (h : a = .next t) (h' : a = .next u) : t = u :=
  Host.Outcome.next.inj (h.symm.trans h')

/-- `t` is what a step from `s` answers, by the part of rule R142 at which the step ends. -/
inductive State.StepsTo (s : State) : State → Prop
  | stopped {q : Status} (hstop : s.StoppedAs q) : s.StepsTo (s.finish q)
  | waited {x : Reg} (hfault : s.fault = none) (hawait : s.await = some x) : s.StepsTo (s.completeWait x)
  | unfetched (hactive : s.Active) (hfetch : ¬ s.Fetchable) :
      s.StepsTo (s.tick.raise (.addressOutOfRange (max s.pc.toNat 4096))).conclude
  | executed {u : State} (hactive : s.Active) (hfetch : s.Fetchable)
      (hexec : exec (decodeWord s.opcode) s.begun = .next u) : s.StepsTo u.conclude

theorem stepsTo_of_step {s t : State} (h : step s = .next t) : s.StepsTo t := by
  have key {u : State} (hu : step s = .next u) (hto : s.StepsTo u) : s.StepsTo t := next_unique hu h ▸ hto
  cases hfault : s.fault with
  | some r => exact key (step_of_fault hfault) (.stopped (.faulted hfault))
  | none =>
    cases hawait : s.await with
    | some x => exact key (step_of_await hfault hawait) (.waited hfault hawait)
    | none =>
      by_cases hend : s.pc = s.progEnd
      · exact key (step_of_end hfault hawait hend) (.stopped (.halted hfault hawait hend))
      · have hactive : s.Active := ⟨hfault, hawait, hend⟩
        by_cases hfetch : s.Fetchable
        · obtain ⟨u, hu⟩ := exec_answers (decodeWord s.opcode) s.begun
          exact key (step_of_exec hactive hfetch hu) (.executed hactive hfetch hu)
        · exact key (step_of_not_fetchable hactive hfetch) (.unfetched hactive hfetch)

/-- A waiting step changes registers and the wait at most, and ends its call (rules R297, R298). -/
theorem State.completeWait_frame (s : State) (x : Reg) : s.completeWait x = { s with
    regs := (s.completeWait x).regs, await := (s.completeWait x).await
    status := (s.completeWait x).status, keyInputs := (s.completeWait x).keyInputs } := by
  rw [State.completeWait]
  split <;> rfl

theorem State.completeWait_fault (s : State) (x : Reg) : (s.completeWait x).fault = s.fault := by
  rw [s.completeWait_frame]

/-- Settles O9: the step only finishes its call. -/
theorem faultedStepChangesNothing : Obligations.FaultedStepChangesNothing := fun _ _ hfault => step_of_fault hfault

end Sys2Proof.Machine
end

section
/-! CALL (rule R172): what it answers, by cases of the room on the stack. -/
namespace Sys2Proof.Machine

theorem State.stackFull_iff (s : State) : s.stackFull = true ↔ s.cfg.stackCapacity = .bounded s.stack.length := by
  rw [State.stackFull]
  cases s.cfg.stackCapacity with
  | unbounded => simp
  | bounded n =>
    show (s.stack.length == n) = true ↔ _
    rw [beq_iff_eq, Config.StackCapacity.bounded.injEq, eq_comm]

theorem exec_call_of_full (nnn : Addr12) {s : State} (h : s.cfg.stackCapacity = .bounded s.stack.length) :
    exec (.call nnn) s = .next (s.raise .stackOverflow) := by
  rw [exec, execCall, if_pos (s.stackFull_iff.2 h)]

theorem exec_call_of_room (nnn : Addr12) {s : State} (h : s.cfg.stackCapacity ≠ .bounded s.stack.length) :
    exec (.call nnn) s = .next ((s.setStack (s.pc :: s.stack)).setPc (BitVec.ofNat 16 nnn.toNat)) := by
  rw [exec, execCall, if_neg fun hfull => h (s.stackFull_iff.1 hfull), zext16_eq_ofNat]

/-- Settles O25: CALL answers by cases of the room on the stack. -/
theorem callPushesOrOverflows : Obligations.CallPushesOrOverflows := fun nnn _ =>
  ⟨decodeWord_encode (i := .call nnn) rfl, fun hroom => exec_call_of_room nnn hroom,
    fun hfull => exec_call_of_full nnn hfull⟩

/-- Settles O26: the RET pops what the CALL pushed. -/
theorem callThenReturnRestoresPc : Obligations.CallThenReturnRestoresPc := fun nnn z _ hroom =>
  ⟨_, exec_call_of_room nnn hroom, fun _ hstack => exec_ret_of_cons z hstack⟩

end Sys2Proof.Machine
end

section
/-! The fault status (60_exceptions.md, rule R340): an instruction leaves it, or sets it to a reason listed for the instruction. -/
namespace Sys2Proof.Machine

/-- The fault status of `s` stays in `t`, or `i` raised its reason, which leaves the stack alone. -/
def KeepsOrRaises (i : Instr) (s t : State) : Prop :=
  t.fault = s.fault ∨ ∃ r, t.fault = some r ∧ RaisedBy i s r ∧ t.stack = s.stack

section
variable {i : Instr} {s t : State} {x : Reg}

theorem KeepsOrRaises.raise {r : Fault} (h : RaisedBy i s r) : KeepsOrRaises i s (s.raise r) := .inr ⟨r, rfl, h, rfl⟩

theorem State.skipIf_fault (s : State) (c : Bool) : (s.skipIf c).fault = s.fault := by
  cases c <;> rfl

/-- The key test raises only for an index of 16 or more, and only where that is a fault (rule R295). -/
theorem State.pressed_error {v : Byte} {r : Fault} (h : s.pressed v = .error r) :
    s.cfg.keyOor = .fault ∧ 16 ≤ v.toNat ∧ r = .keyIndexOutOfRange v := by
  by_cases hv : v.toNat < 16
  · rw [State.pressed, dif_pos hv] at h
    cases h
  · cases hpolicy : s.cfg.keyOor with
    | notPressed =>
      rw [State.pressed_of_notPressed (Nat.not_lt.1 hv) hpolicy] at h
      cases h
    | fault =>
      rw [State.pressed_of_fault (Nat.not_lt.1 hv) hpolicy] at h
      cases h
      exact ⟨rfl, Nat.not_lt.1 hv, rfl⟩

theorem exec_ret_keepsOrRaises (z : Nib) (h : exec (.ret z) s = .next t) : KeepsOrRaises (.ret z) s t := by
  cases hstack : s.stack with
  | nil =>
    obtain rfl := next_unique (exec_ret_of_nil z hstack) h
    exact .raise ⟨⟨z, rfl⟩, hstack⟩
  | cons a rest =>
    obtain rfl := next_unique (exec_ret_of_cons z hstack) h
    exact .inl rfl

theorem exec_call_keepsOrRaises (nnn : Addr12) (h : exec (.call nnn) s = .next t) : KeepsOrRaises (.call nnn) s t := by
  by_cases hfull : s.cfg.stackCapacity = .bounded s.stack.length
  · obtain rfl := next_unique (exec_call_of_full nnn hfull) h
    exact .raise ⟨⟨nnn, rfl⟩, hfull⟩
  · obtain rfl := next_unique (exec_call_of_room nnn hfull) h
    exact .inl rfl

/-- A key skip: by the answer of the key test it may move pc, or it raises. -/
theorem keySkip_keepsOrRaises {f : Bool → Bool} (hi : i = .skp x ∨ i = .sknp x)
    (hok : ∀ {b}, s.pressed (s.reg x) = .ok b → exec i s = .next (s.skipIf (f b)))
    (herror : ∀ {r}, s.pressed (s.reg x) = .error r → exec i s = .next (s.raise r)) (h : exec i s = .next t) :
    KeepsOrRaises i s t := by
  cases hkey : s.pressed (s.reg x) with
  | ok b =>
    obtain rfl := next_unique (hok hkey) h
    exact .inl (s.skipIf_fault _)
  | error r =>
    obtain rfl := next_unique (herror hkey) h
    obtain ⟨hpolicy, hrange, rfl⟩ := State.pressed_error hkey
    exact .raise ⟨hpolicy, hrange, x, hi, rfl⟩

/-- A storing transfer that `i` makes from I on. -/
theorem writeBytes_keepsOrRaises {vs : List Byte}
    (hi : ∀ k, k < vs.length → (∃ x, i = .ldB x ∧ k < 3) ∨ (∃ x, i = .storeRegs x ∧ k ≤ x.val))
    (h : (writeBytes s s.index.toNat vs).answer = .next t) : KeepsOrRaises i s t := by
  obtain ⟨u, hu, hframe, -, -, -, hfault⟩ := writeBytes_answer s s.index.toNat vs
  obtain rfl := next_unique hu h
  have hcfg : u.cfg = s.cfg := by rw [hframe]
  refine hfault.imp_right ?_
  rintro ⟨r, hr, hfits, k, hk, rfl | rfl⟩
  · obtain ⟨hpolicy, hrange⟩ := hfits
    rw [hcfg] at hpolicy
    exact ⟨_, hr, ⟨hpolicy, hrange, k, rfl, .inr ((hi k hk).imp_right .inl)⟩, by rw [hframe]⟩
  · obtain ⟨hpolicy, hglyph⟩ := hfits
    rw [hcfg] at hpolicy
    exact ⟨_, hr, ⟨hpolicy, hglyph, k, rfl, hi k hk⟩, by rw [hframe]⟩

theorem exec_loadRegs_keepsOrRaises (h : exec (.loadRegs x) s = .next t) : KeepsOrRaises (.loadRegs x) s t := by
  obtain ⟨u, hu, hframe, -, hfault⟩ := readRegs_answer s s.dataAddr (regsUpTo x)
  obtain rfl := next_unique hu h
  refine hfault.imp_right ?_
  rintro ⟨k, hk, hpolicy, hrange, hr⟩
  rw [regsUpTo_length] at hk
  exact ⟨_, hr, ⟨hpolicy, hrange, k, rfl, .inr (.inr (.inr ⟨x, rfl, Nat.le_of_lt_succ hk⟩))⟩, by rw [hframe]⟩

theorem exec_drw_keepsOrRaises {y : Reg} {n : Nib} (h : exec (.drw x y n) s = .next t) :
    KeepsOrRaises (.drw x y n) s t := by
  obtain ⟨u, hu, hframe, -, ⟨hfault, -⟩ | ⟨-, k, hk, hpolicy, hrange, hr⟩⟩ := execDrw_answer x y n s
  · obtain rfl := next_unique hu h
    exact .inl hfault
  · obtain rfl := next_unique hu h
    exact .inr ⟨_, hr, ⟨hpolicy, hrange, k, rfl, .inl ⟨x, y, n, rfl, hk⟩⟩, by rw [hframe]⟩

/-- The instructions that may raise each do so as listed; the others do not write the fault status. -/
theorem exec_keepsOrRaises (h : exec i s = .next t) : KeepsOrRaises i s t := by
  cases i with
  | ret z => exact exec_ret_keepsOrRaises z h
  | call nnn => exact exec_call_keepsOrRaises nnn h
  | skp x => exact keySkip_keepsOrRaises (f := id) (.inl rfl) exec_skp_of_ok exec_skp_of_error h
  | sknp x => exact keySkip_keepsOrRaises (.inr rfl) exec_sknp_of_ok exec_sknp_of_error h
  | ldB x => exact writeBytes_keepsOrRaises (vs := asciiDigits (s.reg x)) (fun _ hk => .inl ⟨x, rfl, hk⟩) h
  | storeRegs x =>
    refine writeBytes_keepsOrRaises (fun k hk => .inr ⟨x, rfl, ?_⟩) h
    rw [List.length_map, regsUpTo_length] at hk
    exact Nat.le_of_lt_succ hk
  | loadRegs x => exact exec_loadRegs_keepsOrRaises h
  | drw x y n => exact exec_drw_keepsOrRaises h
  | _ => exact .inl ((changesOnly_of_exec h).piece .fault (by simp [writtenPieces]))

end

/-- Settles O53: every instruction keeps the fault status or raises as listed. -/
theorem faultsAreRaisedOnlyAsListed : Obligations.FaultsAreRaisedOnlyAsListed := fun _ _ _ h =>
  (exec_keepsOrRaises h).imp_right fun ⟨r, hr, hraised, _⟩ => ⟨r, hr, hraised⟩

/-! ### The default policies -/

/-- Under the default policies every reason but StackUnderflow is excluded by its parameter. -/
theorem RaisedBy.underflow {i : Instr} {s : State} {r : Fault} (h : RaisedBy i s r) (hmem : s.cfg.memOor = .wrap)
    (hglyph : s.cfg.fontWrites ≠ .fault) (hkey : s.cfg.keyOor = .notPressed)
    (hstack : s.cfg.stackCapacity = .unbounded) : r = .stackUnderflow ∧ s.stack = [] ∧ ∃ z, i = .ret z := by
  cases r with
  | stackUnderflow =>
    obtain ⟨hret, hempty⟩ := h
    exact ⟨rfl, hempty, hret⟩
  | addressOutOfRange a =>
    obtain ⟨hpolicy, -⟩ := h
    exact absurd (hmem.symm.trans hpolicy) (by decide)
  | fontRegionWrite a =>
    obtain ⟨hpolicy, -⟩ := h
    exact absurd hpolicy hglyph
  | stackOverflow =>
    obtain ⟨-, hfull⟩ := h
    exact absurd (hstack.symm.trans hfull) (by simp)
  | keyIndexOutOfRange v =>
    obtain ⟨hpolicy, -⟩ := h
    exact absurd (hkey.symm.trans hpolicy) (by decide)

/-- Settles O54: of the ways a step can end only an instruction that raises takes a new fault, since every fetch is in
range. -/
theorem defaultPoliciesRaiseOnlyUnderflow : Obligations.DefaultPoliciesRaiseOnlyUnderflow := by
  intro s t r hmem hglyph hkey hstack hfault hstep hr
  have hnew : t.fault ≠ s.fault := by simp [hfault, hr]
  cases stepsTo_of_step hstep with
  | stopped _ => exact absurd rfl hnew
  | waited _ _ => exact absurd (s.completeWait_fault _) hnew
  | unfetched _ hfetch => exact absurd (.inl hmem) hfetch
  | executed hactive _ hexec =>
    obtain hkept | ⟨q, hq, hraised, -⟩ := exec_keepsOrRaises hexec
    · exact absurd hkept hnew
    · obtain rfl : q = r := Option.some.inj (hq.symm.trans hr)
      obtain ⟨hreason, hempty, hret⟩ := hraised.underflow hmem hglyph hkey hstack
      exact ⟨hreason, hempty, hactive, hret⟩

end Sys2Proof.Machine
end

section
/-! The invariant of the machine (rules R42, R50 to R52, R75, R340): it reads six fields of the state, an instruction keeps each of its clauses, and so does every step. -/
namespace Sys2Proof.Machine

section
variable {s t : State} {i : Instr}

/-! ### What the invariant reads -/

theorem State.byteAt_congr (hcfg : t.cfg = s.cfg) (hmem : t.mem = s.mem) (a : Nat) : t.byteAt a = s.byteAt a := by
  rw [State.byteAt, State.byteAt, hcfg, hmem]

theorem State.FaultFits.congr {r : Fault} (h : s.FaultFits r) (hcfg : t.cfg = s.cfg) (hstack : t.stack = s.stack) :
    t.FaultFits r := by
  cases r <;> simpa only [State.FaultFits, hcfg, hstack] using h

theorem State.Inv.congr (h : s.Inv) (hcfg : t.cfg = s.cfg) (hmem : t.mem = s.mem) (hprogEnd : t.progEnd = s.progEnd)
    (hstack : t.stack = s.stack) (hawait : t.await = s.await) (hfault : t.fault = s.fault) : t.Inv where
  memory := by rw [hcfg, hmem]; exact h.memory
  glyphs hwrites a ha := by
    rw [hcfg] at hwrites ⊢
    rw [State.byteAt_congr hcfg hmem]
    exact h.glyphs hwrites a ha
  marker := by rw [hprogEnd]; exact h.marker
  stack := by rw [hcfg, hstack]; exact h.stack
  waiting := by rw [hawait, hfault]; exact h.waiting
  reason r hr := (h.reason r (hfault ▸ hr)).congr hcfg hstack

/-! ### What an instruction does to each clause -/

/-- Only the storing transfers write memory; they keep its canonical form, and the glyph table unless writes go through
(rule R75). -/
theorem exec_keeps_memory (h : exec i s = .next t) :
    (Memory.wf s.cfg.glyphs s.mem → Memory.wf s.cfg.glyphs t.mem) ∧
      (s.cfg.fontWrites ≠ .write → ∀ a, a < 0x50 → t.byteAt a = s.byteAt a) := by
  by_cases hmem : .mem ∈ writtenPieces i
  · obtain ⟨a, vs, hstores⟩ : ∃ a vs, (writeBytes s a vs).answer = .next t := by
      obtain ⟨x, rfl | rfl⟩ := writers_mem hmem
      · exact ⟨s.dataAddr, asciiDigits (s.reg x), h⟩
      · exact ⟨s.dataAddr, (regsUpTo x).map s.reg, h⟩
    obtain ⟨u, hu, -, -, hwf, hglyphs, -⟩ := writeBytes_answer s a vs
    obtain rfl := next_unique hu hstores
    exact ⟨hwf, hglyphs⟩
  · have hframe := changesOnly_of_exec h
    have hkept : t.mem = s.mem := hframe.piece .mem hmem
    exact ⟨fun hwf => hkept ▸ hwf, fun _ a _ => hframe.byteAt hmem a⟩

/-- Only RET and CALL write the stack; RET shortens it, and CALL pushes below the capacity only (rules R42, R172). -/
theorem exec_keeps_capacity (h : exec i s = .next t)
    (hs : ∀ n, s.cfg.stackCapacity = .bounded n → s.stack.length ≤ n) :
    ∀ n, s.cfg.stackCapacity = .bounded n → t.stack.length ≤ n := by
  intro n hn
  have hle := hs n hn
  by_cases hstack : .stack ∈ writtenPieces i
  · obtain ⟨z, rfl⟩ | ⟨nnn, rfl⟩ := writers_stack hstack
    · cases hcases : s.stack with
      | nil =>
        obtain rfl := next_unique (exec_ret_of_nil z hcases) h
        exact hle
      | cons a rest =>
        obtain rfl := next_unique (exec_ret_of_cons z hcases) h
        rw [hcases, List.length_cons] at hle
        exact Nat.le_of_succ_le hle
    · by_cases hfull : s.cfg.stackCapacity = .bounded s.stack.length
      · obtain rfl := next_unique (exec_call_of_full nnn hfull) h
        exact hle
      · obtain rfl := next_unique (exec_call_of_room nnn hfull) h
        have hne : s.stack.length ≠ n := fun e => hfull (e ▸ hn)
        exact Nat.lt_of_le_of_ne hle hne
  · have hkept : t.stack = s.stack := (changesOnly_of_exec h).piece .stack hstack
    rwa [hkept]

/-- Only LD Vx, K writes the wait, and it raises nothing (rule R296). -/
theorem exec_keeps_wait_or_fault (h : exec i s = .next t) : t.await = s.await ∨ t.fault = s.fault := by
  by_cases hawait : .await ∈ writtenPieces i
  · obtain ⟨x, rfl⟩ := writers_await hawait
    obtain rfl := next_unique (exec_ldVxK x s) h
    exact .inr rfl
  · exact .inl ((changesOnly_of_exec h).piece .await hawait)

theorem RaisedBy.faultFits {r : Fault} (h : RaisedBy i s r) : s.FaultFits r := by
  cases r with
  | stackUnderflow | stackOverflow =>
    obtain ⟨-, hstack⟩ := h
    exact hstack
  | addressOutOfRange | fontRegionWrite | keyIndexOutOfRange =>
    obtain ⟨hpolicy, hrange, -⟩ := h
    exact ⟨hpolicy, hrange⟩

/-- An instruction, which runs without a fault and without a wait, keeps the invariant. -/
theorem State.Inv.of_exec (hs : s.Inv) (hfault : s.fault = none) (hawait : s.await = none)
    (h : exec i s = .next t) : t.Inv := by
  have hframe := changesOnly_of_exec h
  obtain ⟨hwf, hglyphs⟩ := exec_keeps_memory h
  refine ⟨?memory, ?glyphs, ?marker, ?stack, ?waiting, ?reason⟩
  case memory => rw [hframe.cfg]; exact hwf hs.memory
  case glyphs =>
    rw [hframe.cfg]
    exact fun hwrites a ha => (hglyphs hwrites a ha).trans (hs.glyphs hwrites a ha)
  case marker => rw [hframe.progEnd]; exact hs.marker
  case stack => rw [hframe.cfg]; exact exec_keeps_capacity h hs.stack
  case waiting => exact (exec_keeps_wait_or_fault h).imp (·.trans hawait) (·.trans hfault)
  case reason =>
    intro r hr
    obtain hkept | ⟨q, hq, hraised, hstack⟩ := exec_keepsOrRaises h
    · exact absurd (hr.symm.trans (hkept.trans hfault)) (by simp)
    · obtain rfl : q = r := Option.some.inj (hq.symm.trans hr)
      exact hraised.faultFits.congr hframe.cfg hstack

/-! ### The parts of a step -/

theorem State.Inv.finish (h : s.Inv) (q : Status) : (s.finish q).Inv := h.congr rfl rfl rfl rfl rfl rfl

/-- A wait's completion ends the wait or leaves it; neither meets a fault. -/
theorem State.Inv.completeWait (h : s.Inv) (x : Reg) : (s.completeWait x).Inv := by
  rw [State.completeWait]
  split
  · exact h.finish _
  · exact ⟨h.memory, h.glyphs, h.marker, h.stack, .inl rfl, h.reason⟩

/-- A fault that fits, taken by a core that does not wait. -/
theorem State.Inv.raise (h : s.Inv) (hawait : s.await = none) {r : Fault} (hr : s.FaultFits r) : (s.raise r).Inv where
  memory := h.memory
  glyphs := h.glyphs
  marker := h.marker
  stack := h.stack
  waiting := .inl hawait
  reason q hq := by
    obtain rfl : r = q := Option.some.inj hq
    exact hr.congr rfl rfl

end

/-- Settles O16: by the ways a step can end. -/
theorem invariantKeptByEveryStep : Obligations.InvariantKeptByEveryStep := by
  intro s t hs hstep
  cases stepsTo_of_step hstep with
  | stopped _ => exact hs.finish _
  | waited _ _ => exact hs.completeWait _
  | unfetched hactive hfetch =>
    obtain ⟨-, hawait, -⟩ := hactive
    have htick : s.tick.Inv := hs.congr rfl rfl rfl rfl rfl rfl
    have hfits : s.tick.FaultFits (.addressOutOfRange (max s.pc.toNat 4096)) :=
      ⟨(State.fetch_outOfRange hfetch).1, Nat.le_max_right _ _⟩
    exact (htick.raise hawait hfits).finish _
  | executed hactive _ hexec =>
    obtain ⟨hfault, hawait, -⟩ := hactive
    have hbegun : s.begun.Inv := hs.congr rfl rfl rfl rfl rfl rfl
    exact (hbegun.of_exec hfault hawait hexec).finish _

end Sys2Proof.Machine
end

section
/-! The host's operations that write state (rules R351, R380, R382, R383): what Initialize and LoadProgram leave, and that all of them keep the invariant. -/
namespace Sys2Proof.Machine

/-- Right after Initialize memory lists nothing, the stack is empty, and there is no wait and no fault. -/
theorem State.inv_afterInit (p : Config.Params) : (State.afterInit p).Inv where
  memory := Memory.wf_nil p.glyphs
  glyphs _ _ _ := rfl
  marker := Nat.zero_le _
  stack _ _ := Nat.zero_le _
  waiting := .inl rfl
  reason _ hr := by cases hr

/-- Settles O17: reset is Initialize under the default parameters. -/
theorem invariantHoldsAfterInitialize : Obligations.InvariantHoldsAfterInitialize :=
  ⟨State.inv_afterInit, State.inv_afterInit defaultParams⟩

theorem State.hostLoad_of_fits (s : State) {b : List Byte} (h : 0x200 + b.length ≤ 4096) : s.hostLoad b =
    .ok ((s.setMem (Memory.pokeAll s.cfg.glyphs s.mem 0x200 b)).setProgEnd (BitVec.ofNat 16 (0x200 + b.length))) := by
  rw [State.hostLoad, if_neg (Nat.not_lt.2 h)]

theorem State.hostLoad_of_tooLarge (s : State) {b : List Byte} (h : 4096 < 0x200 + b.length) :
    s.hostLoad b = .error .programTooLarge := by
  rw [State.hostLoad, if_pos h]

/-- A byte of memory after a load, by where its address lies. -/
theorem State.byteAt_setMem_pokeAll (s : State) (b : List Byte) (a c : Nat) :
    (s.setMem (Memory.pokeAll s.cfg.glyphs s.mem a b)).byteAt c =
      if h : a ≤ c ∧ c - a < b.length then b[c - a] else s.byteAt c :=
  Memory.peek_pokeAll s.cfg.glyphs b s.mem a c

/-- The address past a program that fits is itself when it is read as a word. -/
theorem progEnd_toNat {n : Nat} (h : 0x200 + n ≤ 4096) : (BitVec.ofNat 16 (0x200 + n)).toNat = 0x200 + n := by
  rw [BitVec.toNat_ofNat]
  omega

/-- A program lies above the glyph table, so loading it keeps the invariant. -/
theorem State.Inv.hostLoad {s t : State} (hs : s.Inv) {b : List Byte} (h : s.hostLoad b = .ok t) : t.Inv := by
  by_cases hfits : 0x200 + b.length ≤ 4096
  · rw [State.hostLoad_of_fits s hfits] at h
    cases h
    refine ⟨Memory.wf_pokeAll b hs.memory hfits, fun hwrites a ha => ?_, ?_, hs.stack, hs.waiting, ?_⟩
    · rw [State.byteAt_setProgEnd, State.byteAt_setMem_pokeAll, dif_neg (by omega)]
      exact hs.glyphs hwrites a ha
    · exact (progEnd_toNat hfits).trans_le hfits
    · exact fun r hr => (hs.reason r hr).congr rfl rfl
  · rw [State.hostLoad_of_tooLarge s (Nat.not_le.1 hfits)] at h
    cases h

/-- Settles O18: Initialize and the clear touch little that the invariant reads, and Step is a step. -/
theorem hostOperationsKeepInvariant : Obligations.HostOperationsKeepInvariant := by
  intro s hs
  refine ⟨?init, ?clear, fun b t h => hs.hostLoad h, fun key t h => ?step⟩
  case init => exact (State.inv_afterInit s.cfg).congr rfl rfl rfl rfl rfl rfl
  case clear => exact hs.congr rfl rfl rfl rfl rfl rfl
  case step =>
    have hkey : State.Inv { s with keyInputs := key :: s.keyInputs } := hs.congr rfl rfl rfl rfl rfl rfl
    rw [State.hostStep_eq_step] at h
    exact invariantKeptByEveryStep _ t hkey h

/-- Settles O20: the bytes land from 0x200 on, and the marker is the address past them. -/
theorem loadProgramCopiesAndMarksEnd : Obligations.LoadProgramCopiesAndMarksEnd := by
  intro s b
  refine ⟨fun hfits => ⟨_, s.hostLoad_of_fits hfits, rfl, progEnd_toNat hfits, fun j hj => ?copied, fun a ha => ?kept⟩,
    fun hlarge => s.hostLoad_of_tooLarge hlarge⟩
  case copied =>
    rw [State.byteAt_setProgEnd, State.byteAt_setMem_pokeAll, dif_pos (by omega)]
    simp only [Nat.add_sub_cancel_left]
  case kept => rw [State.byteAt_setProgEnd, State.byteAt_setMem_pokeAll, dif_neg (by omega)]

theorem State.byteAt_hostInit (s : State) (a : Nat) : s.hostInit.byteAt a = resetByte s.cfg.glyphs a := rfl

/-- Settles O19: every field is the one of rule R54, and memory lists nothing, so it reads as after reset. -/
theorem initializeZeroesAllState : Obligations.InitializeZeroesAllState := by
  intro s t
  refine ⟨fun r => ?regs, rfl, rfl, rfl, rfl, rfl, fun a ha => ?glyphs, fun a ha => ?zeros, fun k hk => ?cells, rfl, rfl,
    rfl, rfl, rfl⟩
  case regs => exact Vector.getElem_replicate r.isLt
  case glyphs => rw [State.byteAt_hostInit, resetByte, dif_pos ha]
  case zeros => rw [State.byteAt_hostInit, resetByte, dif_neg (Nat.not_lt.2 ha)]
  case cells => exact Vector.getElem_replicate hk

end Sys2Proof.Machine
end

section
/-! The wait for a key over one step and over a run (rules R152, R297, R298). -/
namespace Sys2Proof.Machine

/-- The core waits to put a key into Vx, and has no fault (rules R51, R142). -/
structure State.WaitsFor (s : State) (x : Reg) : Prop where
  fault : s.fault = none
  await : s.await = some x

section
variable {s : State} {x k : Reg} {quiet later : List Keys} {v press : Keys}

theorem State.WaitsFor.finish (h : s.WaitsFor x) (q : Status) : (s.finish q).WaitsFor x := ⟨h.fault, h.await⟩

theorem step_of_quiet (h : s.WaitsFor x) (hkeys : leastKey s.keys = none) :
    step s = .next (s.finish .awaitingKey) := by
  rw [step_of_await h.fault h.await, State.completeWait, hkeys]

theorem step_of_press (h : s.WaitsFor x) (hkeys : leastKey s.keys = some k) :
    step s = .next (((s.setReg x (BitVec.ofNat 8 k.val)).setAwait none).finish .running) := by
  rw [step_of_await h.fault h.await, State.completeWait, hkeys]

/-! The vectors of the coming calls: a call reads the first and uses it up. -/

theorem State.keys_of_keyInputs (h : s.keyInputs = v :: later) : s.keys = v := by
  rw [State.keys, h, List.headD_cons]

theorem State.finish_keyInputs_of_cons (h : s.keyInputs = v :: later) (q : Status) : (s.finish q).keyInputs = later := by
  rw [State.finish_keyInputs, h, List.tail_cons]

theorem run_succ_of_quiet (h : s.WaitsFor x) (hkeys : s.keyInputs = v :: later) (hv : leastKey v = none) (n : Nat) :
    Host.Core.run core (n + 1) s = Host.Core.run core n (s.finish .awaitingKey) :=
  run_succ (step_of_quiet h (by rwa [State.keys_of_keyInputs hkeys])) n

/-- As long as the calls have no key pressed, a waiting core only uses up their vectors. -/
theorem run_of_quiet (h : s.WaitsFor x) (hkeys : s.keyInputs = quiet ++ later)
    (hquiet : ∀ v ∈ quiet, leastKey v = none) {m : Nat} (hm : m < quiet.length) : Host.Core.run core (m + 1) s =
      (Host.Outcome.next { s with status := .awaitingKey, keyInputs := s.keyInputs.drop (m + 1) } : Result) := by
  induction quiet generalizing s m with
  | nil => exact absurd hm (Nat.not_lt_zero m)
  | cons v quiet ih =>
    obtain ⟨hv, hquiet⟩ := List.forall_mem_cons.1 hquiet
    rw [run_succ_of_quiet h hkeys hv]
    cases m with
    | zero => rw [List.drop_one]; rfl
    | succ m =>
      rw [ih (h.finish _) (State.finish_keyInputs_of_cons hkeys _) hquiet (Nat.lt_of_succ_lt_succ hm),
        State.finish_keyInputs, List.drop_tail]
      rfl

/-- The first call with a key pressed ends the wait, however many quiet calls there were. -/
theorem run_of_press (h : s.WaitsFor x) (hkeys : s.keyInputs = quiet ++ press :: later)
    (hquiet : ∀ v ∈ quiet, leastKey v = none) (hpress : leastKey press = some k) :
    Host.Core.run core (quiet.length + 1) s = (Host.Outcome.next { s with
      regs := s.regs.set x.val (BitVec.ofNat 8 k.val), await := none, status := .running,
      keyInputs := later } : Result) := by
  induction quiet generalizing s with
  | nil =>
    rw [List.nil_append] at hkeys
    have hlater : s.keyInputs.tail = later := by rw [hkeys, List.tail_cons]
    rw [List.length_nil, run_succ (step_of_press h (by rwa [State.keys_of_keyInputs hkeys])), ← hlater]
    rfl
  | cons v quiet ih =>
    obtain ⟨hv, hquiet⟩ := List.forall_mem_cons.1 hquiet
    rw [List.length_cons, run_succ_of_quiet h hkeys hv, ih (h.finish _) (State.finish_keyInputs_of_cons hkeys _) hquiet]
    rfl

end

/-- Settles O10: by cases of the least pressed key. -/
theorem waitingStepTakesLeastKey : Obligations.WaitingStepTakesLeastKey := fun _ _ hfault hawait =>
  ⟨fun hquiet => step_of_quiet ⟨hfault, hawait⟩ (leastKey_none hquiet),
    fun _ hk hleast => step_of_press ⟨hfault, hawait⟩ (leastKey_some hk hleast)⟩

/-- Settles O12: the quiet calls, one by one, and then the press. -/
theorem waitEndsAtFirstPress : Obligations.WaitEndsAtFirstPress := by
  intro quiet press rest k x s hfault hawait hkeys hquiet hk hleast
  have hwaits : s.WaitsFor x := ⟨hfault, hawait⟩
  have hquiet' : ∀ v ∈ quiet, leastKey v = none := fun v hv => leastKey_none (hquiet v hv)
  exact ⟨fun _ hm => run_of_quiet hwaits hkeys hquiet' hm, run_of_press hwaits hkeys hquiet' (leastKey_some hk hleast)⟩

end Sys2Proof.Machine
end

section
/-! What a step does to the timers and what it leaves (rules R46, R145, R150, R350), by the ways it can end; the registers an instruction leaves (rule R32). -/
namespace Sys2Proof.Machine

section
variable {s t : State}

/-! ### The timers -/

theorem timerAfter_toNat (v : Byte) : (timerAfter v).toNat = v.toNat - 1 := by
  have hv := v.isLt
  rw [timerAfter, BitVec.toNat_ofNat]
  omega

theorem State.StoppedAs.not_active {q : Status} (h : s.StoppedAs q) : ¬ s.Active := by
  rintro ⟨hfault, -, hpc⟩
  cases h with
  | faulted hr => exact absurd (hfault.symm.trans hr) (by simp)
  | halted _ _ hend => exact hpc hend

theorem State.Active.not_await (h : s.Active) {x : Reg} : s.await ≠ some x := by
  obtain ⟨-, hawait, -⟩ := h
  simp [hawait]

/-- A step that does not execute leaves the timers. -/
theorem State.StepsTo.timers_of_not_active (h : s.StepsTo t) (hidle : ¬ s.Active) : t.dt = s.dt ∧ t.st = s.st := by
  cases h with
  | stopped _ => exact ⟨rfl, rfl⟩
  | waited _ _ =>
    rw [s.completeWait_frame]
    exact ⟨rfl, rfl⟩
  | unfetched hactive _ => exact absurd hactive hidle
  | executed hactive _ _ => exact absurd hactive hidle

/-- A step that executes leaves every piece that its instruction does not write as the start of the instruction has it,
even where its fetch raises, but for pc and the fault status. -/
theorem State.StepsTo.agreesOn_begun (h : s.StepsTo t) (hactive : s.Active) {p : Piece} (hpc : p ≠ .pc)
    (hfault : p ≠ .fault) (hp : s.Fetchable → p ∉ writtenPieces (decodeWord s.opcode)) : s.begun.AgreesOn t p := by
  cases h with
  | stopped hstop => exact absurd hactive hstop.not_active
  | waited _ hawait => exact absurd hawait hactive.not_await
  | unfetched _ _ =>
    rw [s.tick_eq]
    cases p with
    | pc => exact absurd rfl hpc
    | fault => exact absurd rfl hfault
    | _ => rfl
  | executed _ hfetch hexec =>
    have hkept := (changesOnly_of_exec hexec).piece p (hp hfetch)
    cases p <;> exact hkept

theorem State.StepsTo.dt_of_active (h : s.StepsTo t) (hactive : s.Active)
    (hi : ∀ x, s.Fetchable → decodeWord s.opcode ≠ .ldDtVx x) : t.dt = timerAfter s.dt :=
  h.agreesOn_begun (p := .dt) hactive nofun nofun fun hfetch hwritten =>
    let ⟨x, hx⟩ := writers_dt hwritten
    hi x hfetch hx

theorem State.StepsTo.st_of_active (h : s.StepsTo t) (hactive : s.Active)
    (hi : ∀ x, s.Fetchable → decodeWord s.opcode ≠ .ldStVx x) : t.st = timerAfter s.st :=
  h.agreesOn_begun (p := .st) hactive nofun nofun fun hfetch hwritten =>
    let ⟨x, hx⟩ := writers_st hwritten
    hi x hfetch hx

end

/-- Settles O14: a step that does not execute leaves the timers, and one that executes starts its instruction with both
decremented. -/
theorem stepDecrementsTimersOnce : Obligations.StepDecrementsTimersOnce := by
  intro s t hstep
  have hto := stepsTo_of_step hstep
  refine ⟨hto.timers_of_not_active, fun hactive hi => ?_, fun hactive hi => ?_⟩
  · rw [hto.dt_of_active hactive hi, timerAfter_toNat]
  · rw [hto.st_of_active hactive hi, timerAfter_toNat]

/-- Settles O15: by induction on the number of steps. -/
theorem timersCountDownToZero : Obligations.TimersCountDownToZero := by
  intro run k h
  induction k with
  | zero => exact ⟨rfl, rfl⟩
  | succ k ih =>
    obtain ⟨hdt, hst⟩ := ih fun j hj => h j (Nat.lt_succ_of_lt hj)
    obtain ⟨hactive, hstep, hi⟩ := h k k.lt_succ_self
    obtain ⟨-, hdt', hst'⟩ := stepDecrementsTimersOnce _ _ hstep
    rw [hdt' hactive fun x _ => (hi x).1, hst' hactive fun x _ => (hi x).2, hdt, hst, Nat.sub_sub, Nat.sub_sub]
    exact ⟨rfl, rfl⟩

/-! ### The redraw flag, the end marker, the parameters and the registers -/

/-- The two instructions that write the redraw flag set it, or leave it where a sprite row raises (rule R46). -/
theorem exec_keeps_redraw {i : Instr} {s t : State} (h : exec i s = .next t) (hs : s.redraw = true) :
    t.redraw = true := by
  by_cases hredraw : .redraw ∈ writtenPieces i
  · obtain ⟨z, rfl⟩ | ⟨x, y, n, rfl⟩ := writers_screen (.inr hredraw)
    · obtain rfl := next_unique (exec_cls z s) h
      rfl
    · obtain ⟨u, hu, -, -, ⟨-, hset⟩ | ⟨hkept, -⟩⟩ := execDrw_answer x y n s
      · obtain rfl := next_unique hu h
        exact hset
      · obtain rfl := next_unique hu h
        exact hkept.trans hs
  · have hkept : t.redraw = s.redraw := (changesOnly_of_exec h).piece .redraw hredraw
    exact hkept.trans hs

/-- Settles O52: by the ways a step can end; only an instruction can write one of the three. -/
theorem stepKeepsRedrawParametersAndMarker : Obligations.StepKeepsRedrawParametersAndMarker := by
  intro s t hstep
  cases stepsTo_of_step hstep with
  | stopped _ => exact ⟨id, rfl, rfl⟩
  | waited _ _ =>
    rw [s.completeWait_frame]
    exact ⟨id, rfl, rfl⟩
  | unfetched _ _ => exact ⟨id, rfl, rfl⟩
  | executed _ _ hexec =>
    have hframe := changesOnly_of_exec hexec
    have hredraw := exec_keeps_redraw hexec
    exact ⟨hredraw, hframe.cfg, hframe.progEnd⟩

/-- Settles O48: the frame of every instruction, read at a register. -/
theorem registersChangeOnlyAsListed : Obligations.RegistersChangeOnlyAsListed := fun _ _ _ h =>
  (changesOnly_of_exec h).reg

end Sys2Proof.Machine
end

section
/-! The operand timing (rules R210, R270): where neither operand is VF, the two timings give the same answers. -/
namespace Sys2Proof.Machine

/-- The state under another operand timing. -/
def State.withTiming (s : State) (v : Config.VfTiming) : State := { s with cfg := { s.cfg with vfTiming := v } }

/-- The two states agree on all that ADD, SUB and DRW may write. -/
def State.SameEffects (t u : State) : Prop :=
  t.regs = u.regs ∧ t.fb = u.fb ∧ t.redraw = u.redraw ∧ t.fault = u.fault

section
variable {s t u : State} {x y : Reg} {v w : Config.VfTiming} {o : Nat → Byte × Byte} {N : Nat}

/-- With operands that are not VF, writing VF does not change what is read. -/
theorem State.flaggedOp_withTiming (s : State) (v : Config.VfTiming) (flag res : Byte → Byte → Byte) (hx : x ≠ VF)
    (hy : y ≠ VF) : (s.withTiming v).flaggedOp flag res x y =
      ((s.setReg VF (flag (s.reg x) (s.reg y))).setReg x (res (s.reg x) (s.reg y))).withTiming v := by
  cases v with
  | snapshot => exact State.flaggedOp_of_snapshot _ _ _ _ rfl
  | sequential =>
    rw [State.flaggedOp_of_sequential _ _ _ _ rfl, State.reg_setReg_other _ _ _ _ hx, State.reg_setReg_other _ _ _ _ hy]
    rfl

theorem State.flaggedOp_sameEffects {flag res : Byte → Byte → Byte} (hx : x ≠ VF) (hy : y ≠ VF) :
    ((s.withTiming v).flaggedOp flag res x y).SameEffects ((s.withTiming w).flaggedOp flag res x y) := by
  rw [s.flaggedOp_withTiming v _ _ hx hy, s.flaggedOp_withTiming w _ _ hx hy]
  exact ⟨rfl, rfl, rfl, rfl⟩

theorem State.regs_eq_of_reg (h : ∀ r, t.reg r = u.reg r) : t.regs = u.regs :=
  Vector.ext fun k hk => h ⟨k, hk⟩

/-- What the dots drawn from given origins leave does not depend on the timing. -/
theorem State.Drawn.eq_of_withTiming (ht : (s.withTiming v).Drawn o N t) (hu : (s.withTiming w).Drawn o N u) :
    t.regs = u.regs ∧ t.fb = u.fb := by
  refine ⟨State.regs_eq_of_reg fun r => ?_, State.fb_eq_of_cell fun px py hx hy => ?_⟩
  · by_cases hr : r = VF
    · subst hr
      by_cases hhit : s.trailHits o N
      · exact (ht.flag_of_hit hhit).trans (hu.flag_of_hit hhit).symm
      · exact (ht.flag_of_no_hit hhit).trans (hu.flag_of_no_hit hhit).symm
    · exact (ht.frame.2 r hr).trans (hu.frame.2 r hr).symm
  · exact (ht.cell px py hx hy).trans (hu.cell px py hx hy).symm

theorem exec_drw_sameEffects {n : Nib} (hx : x ≠ VF) (hy : y ≠ VF)
    (ht : exec (.drw x y n) (s.withTiming v) = .next t) (hu : exec (.drw x y n) (s.withTiming w) = .next u) :
    t.SameEffects u := by
  obtain ⟨j, hj, hrows, hstop⟩ := s.exists_readable_rows n.toNat
  have hj15 := hj.trans (nib_toNat_le n)
  have drawn (q : Config.VfTiming) := State.afterDots_drawn_of_fixed (s := s.withTiming q) (N := 8 * j)
    (.inr ⟨hx, hy⟩) (by omega)
  obtain ⟨hregs, hfb⟩ := (drawn v).eq_of_withTiming (drawn w)
  obtain hlt | rfl := Nat.lt_or_eq_of_le hj
  · obtain rfl := next_unique (exec_drw_raises hlt (s := s.withTiming v) hrows (hstop hlt)) ht
    obtain rfl := next_unique (exec_drw_raises hlt (s := s.withTiming w) hrows (hstop hlt)) hu
    exact ⟨hregs, hfb, (drawn v).frame.redraw.trans (drawn w).frame.redraw.symm, rfl⟩
  · obtain rfl := next_unique (exec_drw_readable (s := s.withTiming v) hrows) ht
    obtain rfl := next_unique (exec_drw_readable (s := s.withTiming w) hrows) hu
    exact ⟨hregs, hfb, rfl, (drawn v).frame.fault.trans (drawn w).frame.fault.symm⟩

end

/-- Settles O32: ADD and SUB read the same operands under both timings, and DRW draws from the same origin. -/
theorem timingMattersOnlyForVF : Obligations.TimingMattersOnlyForVF := by
  intro x y n s t u i hx hy hi ht hu
  obtain rfl | rfl | rfl := hi
  · obtain rfl := next_unique (exec_addReg x y (s.withTiming .snapshot)) ht
    obtain rfl := next_unique (exec_addReg x y (s.withTiming .sequential)) hu
    exact State.flaggedOp_sameEffects hx hy
  · obtain rfl := next_unique (exec_subReg x y (s.withTiming .snapshot)) ht
    obtain rfl := next_unique (exec_subReg x y (s.withTiming .sequential)) hu
    exact State.flaggedOp_sameEffects hx hy
  · exact exec_drw_sameEffects (v := .snapshot) (w := .sequential) hx hy ht hu

end Sys2Proof.Machine
end

section
/-! RND (rule R208), LD B (rule R237) and the bits that no instruction reads (rule R105). -/
namespace Sys2Proof.Machine

/-! ### RND -/

theorem exec_rnd (x : Reg) (nn : Byte) (s : State) :
    exec (.rnd x nn) s = .next (s.setReg x (Config.randomByte s.draws &&& nn)).countDraw := rfl

/-- A masked byte has no bit outside its mask. -/
theorem and_and_not_self (r nn : Byte) : (r &&& nn) &&& ~~~nn = 0 := by
  rw [BitVec.and_assoc, BitVec.and_not_self]
  exact BitVec.and_zero

/-- Settles O33: the byte is whatever the draw gives. -/
theorem rndIsAMaskedDraw : Obligations.RndIsAMaskedDraw := fun x nn s =>
  ⟨decodeWord_encode (i := .rnd x nn) rfl, _, rfl, exec_rnd x nn s, and_and_not_self _ nn⟩

/-! ### LD B -/

theorem exec_ldB (x : Reg) (s : State) :
    exec (.ldB x) s = (writeBytes s s.index.toNat (asciiDigits (s.reg x))).answer := rfl

theorem asciiDigits_length (v : Byte) : (asciiDigits v).length = 3 := rfl

theorem asciiDigits_getElem? (v : Byte) {k : Nat} (hk : k < 3) : (asciiDigits v)[k]? = some (BitVec.ofNat 8
    (0x30 + (if k = 0 then v.toNat / 100 else if k = 1 then v.toNat / 10 % 10 else v.toNat % 10))) := by
  interval_cases k <;> rfl

/-- Settles O36: the sequence of the three writes goes through, or stops at the first that raises. -/
theorem decimalDigitsAreStored : Obligations.DecimalDigitsAreStored := by
  intro x s v digit base storedUpTo
  have stored {t : State} {n : Nat} (hn : n ≤ 3) (h : s.Stored base (asciiDigits (s.reg x)) n t) : storedUpTo t n :=
    ⟨fun k hk => h.byte k (digit k) hk (asciiDigits_getElem? _ (hk.trans_le hn)), h.other⟩
  have hlen : (asciiDigits (s.reg x)).length ≤ 4096 := by rw [asciiDigits_length]; decide
  refine ⟨decodeWord_encode (i := .ldB x) rfl, fun hall => ?_, fun j r hj hbefore hraise => ?_⟩
  · obtain ⟨t, ht, hstored⟩ := writeBytes_done s base hlen hall
    exact ⟨t, by rw [exec_ldB, ht]; rfl, hstored.frame, stored le_rfl hstored⟩
  · obtain ⟨t, ht, hstored⟩ := writeBytes_stops s base hlen hj hbefore hraise
    exact ⟨t.raise r, by rw [exec_ldB, ht]; rfl, hstored.raise_eq r, (stored hj.le hstored : storedUpTo t j)⟩

/-! ### The unread bits -/

/-- Settles O5: the decoder keeps the bits, and the meanings of the four do not look at them. -/
theorem unreadBitsHaveNoEffect : Obligations.UnreadBitsHaveNoEffect := by
  intro x y z z' s
  have runs {w : Word} {i j : Instr} (hdecode : decodeWord w = i) (hunread : exec i s = exec j s) :
      exec (decodeWord w) s = exec j s := by rw [hdecode, hunread]
  exact ⟨runs (decodeWord_encode (i := .cls z) rfl) rfl, runs (decodeWord_encode (i := .ret z) rfl) rfl,
    runs (decodeWord_encode (i := .seReg x.toFin y.toFin z) rfl) rfl,
    runs (decodeWord_encode (i := .sneReg x.toFin y.toFin z) rfl) rfl⟩

end Sys2Proof.Machine
end
